-- ==== Sys2Proof/Word.lean ====
section
/-! DEFINITION. The word type and its plainest arithmetic (00_scope.md R8, R9). -/

namespace Sys2Proof

/-- A 16-bit word: "the architecture's natural integer size" (00_scope.md R15). -/
abbrev Word := BitVec 16

/-- `w16(n) = n mod 65536`, always in 0..65535 (R9). -/
def w16 (n : Int) : Word := BitVec.ofInt 16 n

/-- `uint(v)`: the word read unsigned (R9). -/
abbrev uint (v : Word) : Int := (v.toNat : Int)

/-- `sint(v)`: the two's-complement reading of a word, in -32768..32767 (R9). -/
abbrev sint (v : Word) : Int := v.toInt

end Sys2Proof
end

