-- ==== Sys2Proof/Machine/Flags.lean ====
section
/-! DEFINITION. What the basic instructions compute: each result and each value of EX (the core's only flag register,
10_state.md R25), on unbounded integers narrowed by `w16` (00_scope.md R9, R10), and the eight conditions. -/

namespace Sys2Proof.Machine

/-! ## Arithmetic (spec/42_basic_arith.md) -/

/-- ADD's result (R111). -/
def addResult (b a : Word) : Word := w16 (uint b + uint a)

/-- ADD's EX (R111). -/
def addEx (b a : Word) : Word := if uint b + uint a > 0xFFFF then 1 else 0

/-- SUB's result (R112). -/
def subResult (b a : Word) : Word := w16 (uint b - uint a)

/-- SUB's EX (R112). -/
def subEx (b a : Word) : Word := if uint b - uint a < 0 then 0xFFFF else 0

/-- MUL's result (R113). -/
def mulResult (b a : Word) : Word := w16 (uint b * uint a)

/-- MUL's EX: the high word of the product, `t >> 16`, which is floor division by 65536 (R10, R113). -/
def mulEx (b a : Word) : Word := w16 (uint b * uint a / 65536)

/-- MLI's result (R114). -/
def mliResult (b a : Word) : Word := w16 (sint b * sint a)

/-- MLI's EX: the high word of the signed product, `floor(t / 65536)` (R114). -/
def mliEx (b a : Word) : Word := w16 (sint b * sint a / 65536)

/-- DIV's result, 0 on division by zero (R115). -/
def divResult (b a : Word) : Word := if a = 0 then 0 else w16 ((uint b).tdiv (uint a))

/-- DIV's EX: the first 16 fraction bits of the quotient (R115). -/
def divEx (b a : Word) : Word := if a = 0 then 0 else w16 ((uint b * 65536).tdiv (uint a))

/-- DVI's result, truncated toward zero, 0 on division by zero (R116). -/
def dviResult (b a : Word) : Word := if a = 0 then 0 else w16 ((sint b).tdiv (sint a))

/-- DVI's EX (R116). -/
def dviEx (b a : Word) : Word := if a = 0 then 0 else w16 ((sint b * 65536).tdiv (sint a))

/-- MOD's result, 0 on modulo by zero (R117). -/
def modResult (b a : Word) : Word := if a = 0 then 0 else w16 ((uint b).tmod (uint a))

/-- MDI's result, whose sign follows the dividend, 0 on modulo by zero (R118). -/
def mdiResult (b a : Word) : Word := if a = 0 then 0 else w16 ((sint b).tmod (sint a))

/-! ## Bitwise operations and shifts (spec/43_basic_bitwise.md) -/

/-- AND's result (R125). -/
def andResult (b a : Word) : Word := b &&& a

/-- BOR's result (R126). -/
def borResult (b a : Word) : Word := b ||| a

/-- XOR's result (R127). -/
def xorResult (b a : Word) : Word := b ^^^ a

/-- SHR's result, for every amount 0 to 65535 (R128, R131). -/
def shrResult (b a : Word) : Word := w16 (b.toNat >>> a.toNat : Nat)

/-- SHR's EX: the bits shifted out, left-aligned (R128). -/
def shrEx (b a : Word) : Word := w16 ((b.toNat <<< 16) >>> a.toNat : Nat)

/-- ASR's result, `b` read signed (R129). -/
def asrResult (b a : Word) : Word := w16 (sint b >>> a.toNat)

/-- ASR's EX, from the raw bits of `b` (R129). -/
def asrEx (b a : Word) : Word := w16 ((b.toNat <<< 16) >>> a.toNat : Nat)

/-- SHL's result (R130). -/
def shlResult (b a : Word) : Word := w16 (b.toNat <<< a.toNat : Nat)

/-- SHL's EX: the bits shifted out, right-aligned (R130). -/
def shlEx (b a : Word) : Word := w16 ((b.toNat <<< a.toNat) >>> 16 : Nat)

/-! ## Carry arithmetic (spec/45_basic_carry_transfer.md) -/

/-- ADX's result (R150). -/
def adxResult (b a ex : Word) : Word := w16 (uint b + uint a + uint ex)

/-- ADX's EX (R150). -/
def adxEx (b a ex : Word) : Word := if uint b + uint a + uint ex > 0xFFFF then 1 else 0

/-- SBX's result (R151). -/
def sbxResult (b a ex : Word) : Word := w16 (uint b - uint a + uint ex)

/-- SBX's EX: 0xFFFF only for a true result below 0 (R151). -/
def sbxEx (b a ex : Word) : Word := if uint b - uint a + uint ex < 0 then 0xFFFF else 0

/-! ## The eight conditions (spec/44_basic_conditional.md) -/

/-- IFB: some bit set (R136). -/
def ifbHolds (b a : Word) : Bool := (b &&& a) != 0

/-- IFC: no bit set (R137). -/
def ifcHolds (b a : Word) : Bool := (b &&& a) == 0

/-- IFE: equal (R138). -/
def ifeHolds (b a : Word) : Bool := b == a

/-- IFN: not equal (R139). -/
def ifnHolds (b a : Word) : Bool := b != a

/-- IFG: greater, unsigned (R140). -/
def ifgHolds (b a : Word) : Bool := decide (uint b > uint a)

/-- IFA: above, signed (R141). -/
def ifaHolds (b a : Word) : Bool := decide (sint b > sint a)

/-- IFL: less, unsigned (R142). -/
def iflHolds (b a : Word) : Bool := decide (uint b < uint a)

/-- IFU: under, signed (R143). -/
def ifuHolds (b a : Word) : Bool := decide (sint b < sint a)

end Sys2Proof.Machine
end

