-- ==== Sys2Proof/Syntax.lean ====
section
/-! DEFINITION. The instructions as syntax: registers, the twelve operand classes, and one constructor per row of
spec/opcode_table.json. -/

namespace Sys2Proof

/-- The general registers, in index order: A = 0, B = 1, C = 2, X = 3, Y = 4, Z = 5, I = 6, J = 7 (10_state.md R21). -/
inductive Reg where
  | a | b | c | x | y | z | i | j
  deriving DecidableEq, Repr, Inhabited

/-- The place an operand stands in: the first operand `b` or the last operand `a` (40_operands.md R75). -/
inductive Position where
  | a | b
  deriving DecidableEq, Repr

/-- The twelve operand classes (40_operands.md R79). A class that consumes a next word does not hold that word: it is
read at the live PC when the operand is resolved (R76), since decoding is a function of the instruction word alone
(30_encoding.md R66). -/
inductive Operand where
  /-- The register itself, selectors 0x00 to 0x07 (R80). -/
  | reg (r : Reg)
  /-- The word the register addresses, 0x08 to 0x0F (R81). -/
  | regPointer (r : Reg)
  /-- The word at register plus next word, 0x10 to 0x17 (R82). -/
  | regNextWordPointer (r : Reg)
  /-- POP as `a` (R83), PUSH as `b` (R84), 0x18. -/
  | pushPop
  /-- The word SP addresses, 0x19 (R85). -/
  | peek
  /-- The word at SP plus next word, 0x1A (R86). -/
  | pick
  /-- SP, 0x1B (R87). -/
  | sp
  /-- PC, 0x1C (R88). -/
  | pc
  /-- EX, 0x1D (R89). -/
  | ex
  /-- The word the next word addresses, 0x1E (R90). -/
  | nextWordPointer
  /-- The next word itself, read only, 0x1F (R91). -/
  | nextWordLiteral
  /-- A small constant, read only, 0x20 to 0x3F, as `a` only (R92); well formed when it is -1 or 0 to 30
  (30_encoding.md R60). -/
  | inlineLiteral (v : Word)
  deriving DecidableEq, Repr

/-- The 36 instructions, one constructor per row of spec/opcode_table.json (30_encoding.md R63, R64). A basic
instruction takes `b` then `a`, a special one its sole operand `a` (R56). -/
inductive Instr where
  | set (b a : Operand) | add (b a : Operand) | sub (b a : Operand) | mul (b a : Operand) | mli (b a : Operand)
  | div (b a : Operand) | dvi (b a : Operand) | mod (b a : Operand) | mdi (b a : Operand)
  | and (b a : Operand) | bor (b a : Operand) | xor (b a : Operand)
  | shr (b a : Operand) | asr (b a : Operand) | shl (b a : Operand)
  | ifb (b a : Operand) | ifc (b a : Operand) | ife (b a : Operand) | ifn (b a : Operand)
  | ifg (b a : Operand) | ifa (b a : Operand) | ifl (b a : Operand) | ifu (b a : Operand)
  | adx (b a : Operand) | sbx (b a : Operand) | sti (b a : Operand) | std (b a : Operand)
  | jsr (a : Operand) | int (a : Operand) | iag (a : Operand) | ias (a : Operand) | rfi (a : Operand)
  | iaq (a : Operand) | hwn (a : Operand) | hwq (a : Operand) | hwi (a : Operand)
  deriving DecidableEq, Repr

/-- The two instruction formats with their operands (30_encoding.md R56). -/
inductive Shape where
  | basic (b a : Operand)
  | special (a : Operand)
  deriving DecidableEq, Repr

/-- The format and the operands of an instruction. -/
def Instr.shape : Instr → Shape
  | .set b a => .basic b a
  | .add b a => .basic b a
  | .sub b a => .basic b a
  | .mul b a => .basic b a
  | .mli b a => .basic b a
  | .div b a => .basic b a
  | .dvi b a => .basic b a
  | .mod b a => .basic b a
  | .mdi b a => .basic b a
  | .and b a => .basic b a
  | .bor b a => .basic b a
  | .xor b a => .basic b a
  | .shr b a => .basic b a
  | .asr b a => .basic b a
  | .shl b a => .basic b a
  | .ifb b a => .basic b a
  | .ifc b a => .basic b a
  | .ife b a => .basic b a
  | .ifn b a => .basic b a
  | .ifg b a => .basic b a
  | .ifa b a => .basic b a
  | .ifl b a => .basic b a
  | .ifu b a => .basic b a
  | .adx b a => .basic b a
  | .sbx b a => .basic b a
  | .sti b a => .basic b a
  | .std b a => .basic b a
  | .jsr a => .special a
  | .int a => .special a
  | .iag a => .special a
  | .ias a => .special a
  | .rfi a => .special a
  | .iaq a => .special a
  | .hwn a => .special a
  | .hwq a => .special a
  | .hwi a => .special a

end Sys2Proof
end

