-- ==== Sys2Proof/WellFormed.lean ====
section
/-! DEFINITION. Which terms of the syntax are instructions the encoding has. -/

namespace Sys2Proof

/-- The constants an inline literal can stand for: -1 and 0 to 30 (30_encoding.md R60). -/
def inlineRange (v : Word) : Bool := v == 0xFFFF || v.toNat ≤ 30

/-- An operand is well formed in a position: an inline literal is "valid only as operand `a`" (30_encoding.md R62) and
only in its range (R60); every other class stands in either position. -/
def Operand.wfAs : Operand → Position → Bool
  | .inlineLiteral v, .a => inlineRange v
  | .inlineLiteral _, .b => false
  | .reg _, _ => true
  | .regPointer _, _ => true
  | .regNextWordPointer _, _ => true
  | .pushPop, _ => true
  | .peek, _ => true
  | .pick, _ => true
  | .sp, _ => true
  | .pc, _ => true
  | .ex, _ => true
  | .nextWordPointer, _ => true
  | .nextWordLiteral, _ => true

/-- Well-formed operands in the positions of a format. -/
def Shape.wf : Shape → Bool
  | .basic b a => b.wfAs .b && a.wfAs .a
  | .special a => a.wfAs .a

/-- A well-formed instruction: the one check every term of the syntax passes or fails. -/
def Instr.wf (i : Instr) : Bool := i.shape.wf

end Sys2Proof
end

