-- ==== Sys2Proof/Decode.lean ====
section
/-! DEFINITION. Fields of an instruction word, the decoder (total on the 65536 words, rejecting by name), the length of
an instruction, and the encoder. From spec/30_encoding.md. -/

namespace Sys2Proof

/-! ## Fields (R55) -/

/-- `op = w[4:0]`. -/
def opField (w : Word) : BitVec 5 := w.extractLsb' 0 5

/-- `b_raw = w[9:5]`: a selector in the basic format, the opcode in the special one. -/
def bField (w : Word) : BitVec 5 := w.extractLsb' 5 5

/-- `a_raw = w[15:10]`. -/
def aField (w : Word) : BitVec 6 := w.extractLsb' 10 6

/-- The encoder of R55: `w = a_raw * 1024 + b_raw * 32 + op`. -/
def packWord (aRaw : BitVec 6) (bRaw op : BitVec 5) : Word :=
  BitVec.ofNat 16 (aRaw.toNat * 1024 + bRaw.toNat * 32 + op.toNat)

/-! ## Selectors (R57) -/

/-- The register of an index (10_state.md R21). -/
def Reg.ofIndex : Nat → Reg
  | 0 => .a
  | 1 => .b
  | 2 => .c
  | 3 => .x
  | 4 => .y
  | 5 => .z
  | 6 => .i
  | _ => .j

/-- The index of a register (10_state.md R21). -/
def Reg.index : Reg → Nat
  | .a => 0
  | .b => 1
  | .c => 2
  | .x => 3
  | .y => 4
  | .z => 5
  | .i => 6
  | .j => 7

/-- The operand class of a selector: each value "belongs to exactly one operand class" (R57), so this is total (R66). -/
def decodeSelector (sel : BitVec 6) : Operand :=
  let n := sel.toNat
  if n < 0x08 then .reg (Reg.ofIndex n)
  else if n < 0x10 then .regPointer (Reg.ofIndex (n - 0x08))
  else if n < 0x18 then .regNextWordPointer (Reg.ofIndex (n - 0x10))
  else if n = 0x18 then .pushPop
  else if n = 0x19 then .peek
  else if n = 0x1A then .pick
  else if n = 0x1B then .sp
  else if n = 0x1C then .pc
  else if n = 0x1D then .ex
  else if n = 0x1E then .nextWordPointer
  else if n = 0x1F then .nextWordLiteral
  else .inlineLiteral (w16 ((n : Int) - 0x21))

/-- The selector of an operand class. The 5-bit field of `b` keeps its low five bits, which is all of it but for an
inline literal, which cannot be a `b` operand (R62). -/
def Operand.selector : Operand → BitVec 6
  | .reg r => BitVec.ofNat 6 r.index
  | .regPointer r => BitVec.ofNat 6 (0x08 + r.index)
  | .regNextWordPointer r => BitVec.ofNat 6 (0x10 + r.index)
  | .pushPop => 0x18
  | .peek => 0x19
  | .pick => 0x1A
  | .sp => 0x1B
  | .pc => 0x1C
  | .ex => 0x1D
  | .nextWordPointer => 0x1E
  | .nextWordLiteral => 0x1F
  | .inlineLiteral v => BitVec.ofNat 6 (v.toNat + 0x21)

/-- `nw(sel)`: how many next words a selector consumes (R57). -/
def selectorNextWords (sel : BitVec 6) : Nat :=
  let n := sel.toNat
  if (0x10 ≤ n ∧ n ≤ 0x17) ∨ n = 0x1A ∨ n = 0x1E ∨ n = 0x1F then 1 else 0

/-- `len(w)`: the number of words of the instruction that begins with `w`, valid or not (R58). -/
def wordLength (w : Word) : Nat :=
  1 + selectorNextWords (aField w) + (if opField w = 0 then 0 else selectorNextWords ((bField w).setWidth 6))

/-- `is_conditional(w)`: the basic opcodes IFB to IFU (R69). -/
def isConditional (w : Word) : Bool := 0x10 ≤ (opField w).toNat && (opField w).toNat ≤ 0x17

/-! ## The decoder (R66) -/

/-- Why a word is no instruction (R65): "a distinct error variant" (R66). -/
inductive DecodeError where
  /-- A basic word whose opcode is unassigned: 0x18, 0x19, 0x1C or 0x1D. -/
  | unassignedBasic (op : BitVec 5)
  /-- A special word whose opcode is unassigned: 0x00, 0x02 to 0x07, 0x0D to 0x0F or 0x13 to 0x1F. -/
  | unassignedSpecial (o : BitVec 5)
  deriving DecidableEq, Repr

/-- The basic opcode map (R63). -/
def decodeBasic (op : BitVec 5) (b a : Operand) : Except DecodeError Instr :=
  match op.toNat with
  | 0x01 => .ok (.set b a)
  | 0x02 => .ok (.add b a)
  | 0x03 => .ok (.sub b a)
  | 0x04 => .ok (.mul b a)
  | 0x05 => .ok (.mli b a)
  | 0x06 => .ok (.div b a)
  | 0x07 => .ok (.dvi b a)
  | 0x08 => .ok (.mod b a)
  | 0x09 => .ok (.mdi b a)
  | 0x0A => .ok (.and b a)
  | 0x0B => .ok (.bor b a)
  | 0x0C => .ok (.xor b a)
  | 0x0D => .ok (.shr b a)
  | 0x0E => .ok (.asr b a)
  | 0x0F => .ok (.shl b a)
  | 0x10 => .ok (.ifb b a)
  | 0x11 => .ok (.ifc b a)
  | 0x12 => .ok (.ife b a)
  | 0x13 => .ok (.ifn b a)
  | 0x14 => .ok (.ifg b a)
  | 0x15 => .ok (.ifa b a)
  | 0x16 => .ok (.ifl b a)
  | 0x17 => .ok (.ifu b a)
  | 0x1A => .ok (.adx b a)
  | 0x1B => .ok (.sbx b a)
  | 0x1E => .ok (.sti b a)
  | 0x1F => .ok (.std b a)
  | _ => .error (.unassignedBasic op)

/-- The special opcode map (R64). -/
def decodeSpecial (o : BitVec 5) (a : Operand) : Except DecodeError Instr :=
  match o.toNat with
  | 0x01 => .ok (.jsr a)
  | 0x08 => .ok (.int a)
  | 0x09 => .ok (.iag a)
  | 0x0A => .ok (.ias a)
  | 0x0B => .ok (.rfi a)
  | 0x0C => .ok (.iaq a)
  | 0x10 => .ok (.hwn a)
  | 0x11 => .ok (.hwq a)
  | 0x12 => .ok (.hwi a)
  | _ => .error (.unassignedSpecial o)

/-- `decode(w)`: "No side effects; pure function of the word" (R66). -/
def decode (w : Word) : Except DecodeError Instr :=
  if opField w = 0 then decodeSpecial (bField w) (decodeSelector (aField w))
  else decodeBasic (opField w) (decodeSelector ((bField w).setWidth 6)) (decodeSelector (aField w))

/-! ## The encoder (R63, R64, R73) -/

/-- The opcode of an instruction: `op` of a basic one (R63), `o` of a special one (R64). -/
def Instr.opcode : Instr → BitVec 5
  | .set _ _ => 0x01
  | .add _ _ => 0x02
  | .sub _ _ => 0x03
  | .mul _ _ => 0x04
  | .mli _ _ => 0x05
  | .div _ _ => 0x06
  | .dvi _ _ => 0x07
  | .mod _ _ => 0x08
  | .mdi _ _ => 0x09
  | .and _ _ => 0x0A
  | .bor _ _ => 0x0B
  | .xor _ _ => 0x0C
  | .shr _ _ => 0x0D
  | .asr _ _ => 0x0E
  | .shl _ _ => 0x0F
  | .ifb _ _ => 0x10
  | .ifc _ _ => 0x11
  | .ife _ _ => 0x12
  | .ifn _ _ => 0x13
  | .ifg _ _ => 0x14
  | .ifa _ _ => 0x15
  | .ifl _ _ => 0x16
  | .ifu _ _ => 0x17
  | .adx _ _ => 0x1A
  | .sbx _ _ => 0x1B
  | .sti _ _ => 0x1E
  | .std _ _ => 0x1F
  | .jsr _ => 0x01
  | .int _ => 0x08
  | .iag _ => 0x09
  | .ias _ => 0x0A
  | .rfi _ => 0x0B
  | .iaq _ => 0x0C
  | .hwn _ => 0x10
  | .hwq _ => 0x11
  | .hwi _ => 0x12

/-- The instruction word of an instruction (R73). Decoding is a function of this word alone (R66). -/
def encode (i : Instr) : Word :=
  match i.shape with
  | .basic b a => packWord a.selector (b.selector.setWidth 5) i.opcode
  | .special a => packWord a.selector i.opcode 0

/-- How many next words an operand consumes (R57). -/
def Operand.nextWords (o : Operand) : Nat := selectorNextWords o.selector

/-- The number of words an instruction occupies (R58). -/
def Instr.length (i : Instr) : Nat :=
  match i.shape with
  | .basic b a => 1 + a.nextWords + b.nextWords
  | .special a => 1 + a.nextWords

/-- All the words of an instruction in memory order (R73): its instruction word, the next word `na` of `a` if it has
one, then the next word `nb` of `b` if it has one. -/
def encodeWords (i : Instr) (na nb : Word) : List Word :=
  match i.shape with
  | .basic b a => encode i :: (List.replicate a.nextWords na ++ List.replicate b.nextWords nb)
  | .special a => encode i :: List.replicate a.nextWords na

/-- The instruction the decoder reads from an instruction whose bits are `w`, bit 0 the least significant of the first
word; the words after the first do not change what it decodes to (R66). -/
def decodeTableWord (nbits w : Nat) : Option Instr :=
  match decode (BitVec.ofNat 16 (w % 2 ^ nbits)) with
  | .ok i => some i
  | .error _ => none

end Sys2Proof
end

