-- ==== Sys2Proof/Config.lean ====
section
/-! DEFINITION. What the host side of the machine fixes: the open parameters of 00_scope.md R7, as constants with no
body, so that nothing in Lean can tell what they are, and the types of what the host answers. -/

namespace Sys2Proof

/-- A device on the hardware bus: id 32 bits, version 16 bits, manufacturer 32 bits (00_scope.md R7). -/
structure Device where
  id : BitVec 32
  version : Word
  manufacturer : BitVec 32
  deriving DecidableEq, Repr, Inhabited

/-- The five words HWQ puts in B, C, X, Y and Z (46_special.md R168). -/
structure HwqWords where
  b : Word
  c : Word
  x : Word
  y : Word
  z : Word
  deriving DecidableEq, Repr, Inhabited

/-- A device's answer to HWI: new values for some of the general registers, and memory words to write, each list
applied from its head (46_special.md R173). It has no room for PC, SP, EX, IA, IQE, Q or halt, which a device
cannot change. -/
structure HwiAnswer where
  regs : List (Reg × Word)
  words : List (Word × Word)
  deriving DecidableEq, Repr, Inhabited

/-- The state the core hands a device (46_special.md R169, R173), as plain data. -/
structure DeviceView where
  regs : List Word
  pc : Word
  sp : Word
  ex : Word
  ia : Word
  mem : List (Nat × Word)
  queue : List Word
  iqe : Bool
  deriving DecidableEq, Repr, Inhabited

/-- What an interrupt raised while dispatch is disabled does (parameter INT_WHILE_DISABLED, 00_scope.md R7). -/
inductive IntWhileDisabled where
  | enqueue
  | drop
  deriving DecidableEq, Repr

/-- `length(HW_DEVICES)`: at most 65535 devices, "so that its length is a word" (46_special.md R172). Open. -/
opaque Config.hwDeviceCount : Word

/-- `HW_DEVICES[i]` for an index below the count (46_special.md R168, R172). Open, and fixed for the run. -/
opaque Config.hwDevice : Word → Device

/-- `HWQ_ABSENT`: the five words of the `n`th host draw, asked for an index with no device (46_special.md R168). Free. -/
opaque Config.hwqAbsent : (n : Nat) → (index : Word) → HwqWords

/-- `HWI_EFFECT`: the answer of the `n`th host draw, of device `index`, handed the state (46_special.md R173). Free. -/
opaque Config.hwiAnswer : (n : Nat) → (index : Word) → DeviceView → HwiAnswer

end Sys2Proof
end

