-- ==== Sys2Proof/Machine/State.lean ====
section
/-! DEFINITION. The state of the core as plain data (10_state.md), the fault record, the reasons a step can stop, and the
state after reset. -/

namespace Sys2Proof.Machine

/-- The eight general registers (10_state.md R21). -/
structure Regs where
  a : Word
  b : Word
  c : Word
  x : Word
  y : Word
  z : Word
  i : Word
  j : Word
  deriving DecidableEq, Repr

/-- The word memory: 65536 words (10_state.md R31), held as its (address, word) pairs in one canonical form, addresses
strictly rising and no word equal to what an unlisted address reads as. The unit is the word: "no byte is addressable"
(R31) and no access sees a byte order (20_memory.md R41). DESIGN CHOICE, safe, log entry 1. -/
abbrev Memory := List (Nat × Word)

/-- What an address that no entry lists reads as: the reset contents, 0x0000 (10_state.md R33). -/
def Memory.unlisted : Word := 0

/-- The canonical form from an address on. -/
def Memory.wfFrom : Nat → Memory → Bool
  | _, [] => true
  | lo, (k, v) :: m => decide (lo ≤ k) && decide (k < 65536) && (v != Memory.unlisted) && Memory.wfFrom (k + 1) m

/-- The canonical form: addresses strictly rising and below 65536, no entry equal to `Memory.unlisted`. -/
def Memory.wf (m : Memory) : Bool := Memory.wfFrom 0 m

/-- The three fatal faults (60_exceptions.md R180). -/
inductive FaultKind where
  /-- "decode encountered a reserved/unassigned code point" (R181). -/
  | invalidOpcode
  /-- "execute attempted to write through a read-only operand class" (R182). -/
  | invalidWriteTarget
  /-- A message enqueued while the queue is full (R183). -/
  | interruptQueueOverflow
  deriving DecidableEq, Repr

/-- The fault record (60_exceptions.md R184): the kind, the address the faulting instruction was fetched from and its
first word; for a host delivery, the PC at the time and no word. -/
structure FaultRecord where
  kind : FaultKind
  pc : Word
  word : Option Word
  deriving DecidableEq, Repr

/-- The reasons a step answers no next state. -/
inductive Fault where
  /-- A fatal fault (60_exceptions.md R180). Raised by a meaning or by the fetch of an invalid word, which the step turns
  into a next state with `halt` set (41_step.md R104), and by the step of a halted core, which changes nothing and
  reports the record again (R96). Safe: the spec's own stop, log entry 3. -/
  | fatal (r : FaultRecord)
  /-- A skip chain that never ends: the step has no successor state (41_step.md R97, 44_basic_conditional.md R145).
  Raised by the eight IF instructions. Safe: the spec's own stuck case, log entry 5. -/
  | skipChainNeverEnds
  deriving DecidableEq, Repr

/-- The reasons an action has no meaning. -/
inductive Refusal where
  /-- An instruction that has no meaning yet, raised by `exec` alone. Safe. No arm of `exec` raises it. -/
  | notModelled (mnemonic : String)
  /-- `set_program` with an image of more than 65536 words, which never reaches the core (70_reset_and_hazards.md R216).
  Raised by the host action alone, never by a step. Safe, log entry 10. -/
  | imageTooLong
  deriving DecidableEq, Repr

/-- The state of the core (10_state.md R20), and one field of the model's own. -/
structure State where
  /-- A, B, C, X, Y, Z, I, J (R21). -/
  regs : Regs
  /-- The program counter (R23). -/
  pc : Word
  /-- The stack pointer (R24). -/
  sp : Word
  /-- The overflow register (R25). -/
  ex : Word
  /-- The interrupt-address register (R26). -/
  ia : Word
  /-- The word memory (R31). -/
  mem : Memory
  /-- The pending-interrupt queue, head first (R28). -/
  queue : List Word
  /-- The interrupt-dispatch-enable bit (R27). -/
  iqe : Bool
  /-- The fault status (R29). -/
  halt : Option FaultRecord
  /-- THE MODEL'S OWN: how many host draws were made, so that each draw is a fresh free value (log entry 7). -/
  hostDraws : Nat
  deriving DecidableEq, Repr

/-- The machine right after reset (10_state.md R33, 70_reset_and_hazards.md R210). The last field is the model's own and
its 0 is a DESIGN CHOICE, log entry 7. -/
def State.reset : State where
  regs := { a := 0, b := 0, c := 0, x := 0, y := 0, z := 0, i := 0, j := 0 }
  pc := 0
  sp := 0
  ex := 0
  ia := 0
  mem := []
  queue := []
  iqe := true
  halt := none
  hostDraws := 0

end Sys2Proof.Machine
end

