-- ==== Sys2Proof/Machine/Ops.lean ====
section
/-! DEFINITION. The named operations over registers, memory, the stack, the interrupt queue and the hardware bus; taking
an interrupt and returning from one; halting on a fault. -/

namespace Sys2Proof.Machine

/-! ## Fixed parameters (00_scope.md R7) -/

/-- `QCAP`, the interrupt queue's capacity: 256 messages (the spec's decision D17). -/
def queueCapacity : Nat := 256

/-- `INT_WHILE_DISABLED`: `enqueue` (the spec's decision D12). -/
def intWhileDisabled : IntWhileDisabled := .enqueue

/-- The number of words of memory. -/
def memorySize : Nat := 65536

/-! ## Registers (10_state.md R21) -/

/-- Reads a general register. -/
def Regs.get (g : Regs) : Reg → Word
  | .a => g.a
  | .b => g.b
  | .c => g.c
  | .x => g.x
  | .y => g.y
  | .z => g.z
  | .i => g.i
  | .j => g.j

/-- Writes a general register: none is hardwired (R21). -/
def Regs.set (g : Regs) (v : Word) : Reg → Regs
  | .a => { g with a := v }
  | .b => { g with b := v }
  | .c => { g with c := v }
  | .x => { g with x := v }
  | .y => { g with y := v }
  | .z => { g with z := v }
  | .i => { g with i := v }
  | .j => { g with j := v }

/-- `R[r]` (00_scope.md R11). -/
def State.getReg (s : State) (r : Reg) : Word := s.regs.get r

/-- `R[r] <- v` (00_scope.md R11). -/
def State.setReg (s : State) (r : Reg) (v : Word) : State := { s with regs := s.regs.set v r }

/-- `PC <- v`. -/
def State.setPc (s : State) (v : Word) : State := { s with pc := v }

/-- `SP <- v`. -/
def State.setSp (s : State) (v : Word) : State := { s with sp := v }

/-- `EX <- v`. -/
def State.setEx (s : State) (v : Word) : State := { s with ex := v }

/-- `IA <- v`. -/
def State.setIa (s : State) (v : Word) : State := { s with ia := v }

/-- `Q <- q`. -/
def State.setQueue (s : State) (q : List Word) : State := { s with queue := q }

/-- `IQE <- v`. -/
def State.setIqe (s : State) (v : Bool) : State := { s with iqe := v }

/-- `halt <- Fault(kind, info)` (41_step.md R104). -/
def State.haltWith (s : State) (r : FaultRecord) : State := { s with halt := some r }

/-- One more host draw (the model's own counter, log entry 7). -/
def State.countDraw (s : State) : State := { s with hostDraws := s.hostDraws + 1 }

/-! ## Memory (20_memory.md R40 to R44) -/

/-- Reads the word at an address. -/
def Memory.read : Memory → Nat → Word
  | [], _ => Memory.unlisted
  | (k, v) :: m, n => if n = k then v else Memory.read m n

/-- Puts an entry in front, unless it says what an unlisted address reads as. -/
def Memory.cons (n : Nat) (v : Word) (m : Memory) : Memory :=
  if v = Memory.unlisted then m else (n, v) :: m

/-- Writes the word at an address, and exactly that word (20_memory.md R44), keeping the canonical form. -/
def Memory.write : Memory → Nat → Word → Memory
  | [], n, v => Memory.cons n v []
  | (k, u) :: m, n, v =>
    if n < k then Memory.cons n v ((k, u) :: m)
    else if n = k then Memory.cons n v m
    else (k, u) :: Memory.write m n v

/-- `MemRead(addr, 1)` (00_scope.md R11); it has no side effect (20_memory.md R44). -/
def State.readMem (s : State) (addr : Word) : Word := Memory.read s.mem addr.toNat

/-- `MemWrite(addr, 1, v)` (00_scope.md R11). -/
def State.writeMem (s : State) (addr v : Word) : State := { s with mem := Memory.write s.mem addr.toNat v }

/-- Stores a list of words from an address up, wrapping (20_memory.md R43). -/
def State.writeWords (s : State) (addr : Word) : List Word → State
  | [] => s
  | v :: vs => (s.writeMem addr v).writeWords (addr + 1) vs

/-! ## Instruction stream and stack -/

/-- `NextWord()`: the word at the live PC, which advances by one (40_operands.md R76). -/
def State.nextWord (s : State) : Word × State := (s.readMem s.pc, s.setPc (s.pc + 1))

/-- `Push(v)`: SP down, then the write (00_scope.md R11, 10_state.md R24). -/
def State.push (s : State) (v : Word) : State := (s.setSp (s.sp - 1)).writeMem (s.sp - 1) v

/-- `Pop()`: the read, then SP up (00_scope.md R11, 10_state.md R24). -/
def State.pop (s : State) : Word × State := (s.readMem s.sp, s.setSp (s.sp + 1))

/-! ## Interrupts (60_exceptions.md R188 to R198) -/

/-- `Enqueue(m)` under a value of INT_WHILE_DISABLED; `none` is the overflow of a full queue (R189). -/
def State.enqueueUnder (p : IntWhileDisabled) (s : State) (m : Word) : Option State :=
  if s.iqe = false ∧ p = .drop then some s
  else if queueCapacity ≤ s.queue.length then none
  else some (s.setQueue (s.queue ++ [m]))

/-- `Enqueue(m)` with the spec's default (R189). -/
def State.enqueue (s : State) (m : Word) : Option State := s.enqueueUnder intWhileDisabled m

/-- TAKING AN INTERRUPT, the one entry the spec describes (R190): IQE cleared, PC then A pushed, PC at IA, A the
message. -/
def State.enterHandler (s : State) (m : Word) : State :=
  ((((s.setIqe false).push s.pc).push (s.getReg .a)).setPc s.ia).setReg .a m

/-- What `Dispatch()` does with a message that has left the queue: discarded when IA = 0 (R191), else its handler is
entered. -/
def State.deliverMessage (s : State) (m : Word) : State := if s.ia = 0 then s else s.enterHandler m

/-- The dispatch at the start of a step: at most one message, from the head, and only when IQE = 1 (R190). -/
def State.takeInterrupt (s : State) : State :=
  match s.iqe, s.queue with
  | true, m :: rest => (s.setQueue rest).deliverMessage m
  | true, [] => s
  | false, _ => s

/-- RETURNING FROM AN INTERRUPT: IQE set, A popped, then PC (46_special.md R165). -/
def State.returnFromInterrupt (s : State) : State :=
  let first := (s.setIqe true).pop
  let second := (first.2.setReg .a first.1).pop
  second.2.setPc second.1

/-! ## The hardware bus (46_special.md R167 to R173) -/

/-- The five words HWQ answers for a device: id low and high, version, manufacturer low and high (R168, R171). -/
def deviceWords (d : Device) : HwqWords where
  b := d.id.extractLsb' 0 16
  c := d.id.extractLsb' 16 16
  x := d.version
  y := d.manufacturer.extractLsb' 0 16
  z := d.manufacturer.extractLsb' 16 16

/-- The registers HWQ fills: B, C, X, Y, Z (R168). -/
def State.setQueryRegs (s : State) (q : HwqWords) : State :=
  ((((s.setReg .b q.b).setReg .c q.c).setReg .x q.x).setReg .y q.y).setReg .z q.z

/-- Whether an index has a device (R168, R172). -/
def deviceAttached (index : Word) : Bool := index.toNat < Config.hwDeviceCount.toNat

/-- HWQ of an index: the device's words, or the five words of a host draw where there is no device (R168). -/
def State.hardwareQuery (s : State) (index : Word) : State :=
  if deviceAttached index then s.setQueryRegs (deviceWords (Config.hwDevice index))
  else (s.setQueryRegs (Config.hwqAbsent s.hostDraws index)).countDraw

/-- The state as the core hands it to a device (R169). -/
def State.deviceView (s : State) : DeviceView where
  regs := [s.regs.a, s.regs.b, s.regs.c, s.regs.x, s.regs.y, s.regs.z, s.regs.i, s.regs.j]
  pc := s.pc
  sp := s.sp
  ex := s.ex
  ia := s.ia
  mem := s.mem
  queue := s.queue
  iqe := s.iqe

/-- Applies the register part of a device's answer. -/
def State.setRegs (s : State) : List (Reg × Word) → State
  | [] => s
  | (r, v) :: rest => (s.setReg r v).setRegs rest

/-- Applies the memory part of a device's answer. -/
def State.writeAll (s : State) : List (Word × Word) → State
  | [] => s
  | (addr, v) :: rest => (s.writeMem addr v).writeAll rest

/-- Applies one answer of a device, "and nothing else" (R173). -/
def State.applyAnswer (s : State) (ans : HwiAnswer) : State := (s.setRegs ans.regs).writeAll ans.words

/-- HWI to an index: one answer of the device, or nothing where there is no device (R169). -/
def State.hardwareInterrupt (s : State) (index : Word) : State :=
  if deviceAttached index then (s.applyAnswer (Config.hwiAnswer s.hostDraws index s.deviceView)).countDraw
  else s

/-! ## Faults (60_exceptions.md R180 to R184) -/

/-- The code of a fault (R180). -/
def FaultKind.code : FaultKind → Nat
  | .invalidOpcode => 1
  | .invalidWriteTarget => 2
  | .interruptQueueOverflow => 3

/-- The record of a fault raised by instruction `i` that began executing in `s`, its PC just past the instruction word:
`(pc0, w)` (R184). The word is the one instruction `i` decodes from. DEDUCED, log entry 4. -/
def State.faultBy (s : State) (k : FaultKind) (i : Instr) : FaultRecord where
  kind := k
  pc := s.pc - 1
  word := some (encode i)

end Sys2Proof.Machine
end

