-- ==== Sys2Proof/Machine/Operands.lean ====
section
/-! DEFINITION. The operand resolver (spec/40_operands.md): locations, resolving the twelve operand classes in both
positions, reading and writing a location. -/

namespace Sys2Proof.Machine

/-- A location (R75), fixed when its operand is resolved (R78). -/
inductive Loc where
  | reg (r : Reg)
  | mem (addr : Word)
  | sp
  | pc
  | ex
  /-- A read-only constant. -/
  | lit (v : Word)
  deriving DecidableEq, Repr

/-- `Read(loc)`: the location's current word (R93). -/
def Loc.read (l : Loc) (s : State) : Word :=
  match l with
  | .reg r => s.getReg r
  | .mem addr => s.readMem addr
  | .sp => s.sp
  | .pc => s.pc
  | .ex => s.ex
  | .lit v => v

/-- `Write(loc, v)` (R94); `none` is the write through a literal, which raises InvalidWriteTarget. -/
def Loc.write (l : Loc) (v : Word) (s : State) : Option State :=
  match l with
  | .reg r => some (s.setReg r v)
  | .mem addr => some (s.writeMem addr v)
  | .sp => some (s.setSp v)
  | .pc => some (s.setPc v)
  | .ex => some (s.setEx v)
  | .lit _ => none

/-- The memory address a write through a location stores to, if it stores at all. -/
def Loc.address : Loc → Option Word
  | .mem addr => some addr
  | .reg _ => none
  | .sp => none
  | .pc => none
  | .ex => none
  | .lit _ => none

/-- `resolve(sel, pos)`: the location of an operand, and the state after the side effects its class names (R80 to R92).
An inline literal is resolved alike in both positions, though no `b` selector names one (R92). -/
def resolve (o : Operand) (p : Position) (s : State) : Loc × State :=
  match o, p with
  | .reg r, _ => (.reg r, s)
  | .regPointer r, _ => (.mem (s.getReg r), s)
  | .regNextWordPointer r, _ => (.mem (s.getReg r + s.nextWord.1), s.nextWord.2)
  | .pushPop, .a => (.mem s.sp, s.setSp (s.sp + 1))
  | .pushPop, .b => (.mem (s.sp - 1), s.setSp (s.sp - 1))
  | .peek, _ => (.mem s.sp, s)
  | .pick, _ => (.mem (s.sp + s.nextWord.1), s.nextWord.2)
  | .sp, _ => (.sp, s)
  | .pc, _ => (.pc, s)
  | .ex, _ => (.ex, s)
  | .nextWordPointer, _ => (.mem s.nextWord.1, s.nextWord.2)
  | .nextWordLiteral, _ => (.lit s.nextWord.1, s.nextWord.2)
  | .inlineLiteral v, _ => (.lit v, s)

/-- Whether an operand class is writable (R94): all but the two literal classes. -/
def writable : Operand → Bool
  | .nextWordLiteral => false
  | .inlineLiteral _ => false
  | .reg _ => true
  | .regPointer _ => true
  | .regNextWordPointer _ => true
  | .pushPop => true
  | .peek => true
  | .pick => true
  | .sp => true
  | .pc => true
  | .ex => true
  | .nextWordPointer => true

/-- The sole operand of a special instruction after it is resolved and read (41_step.md R101). -/
structure Source where
  val : Word
  loc : Loc
  state : State
  deriving DecidableEq, Repr

/-- Resolves and reads the operand `a` (R77). -/
def resolveSource (a : Operand) (s : State) : Source where
  val := (resolve a .a s).1.read (resolve a .a s).2
  loc := (resolve a .a s).1
  state := (resolve a .a s).2

/-- Both operands of a basic instruction after they are resolved: the word read from `a`, the location of `b`, and the
state then (41_step.md R100). -/
structure Both where
  a : Word
  bloc : Loc
  state : State
  deriving DecidableEq, Repr

/-- Resolves and reads `a`, then resolves `b` (R77). -/
def resolveBoth (b a : Operand) (s : State) : Both where
  a := (resolveSource a s).val
  bloc := (resolve b .b (resolveSource a s).state).1
  state := (resolve b .b (resolveSource a s).state).2

/-- The word read from `b`, after both operands are resolved (41_step.md R100, R106). -/
def Both.b (r : Both) : Word := r.bloc.read r.state

end Sys2Proof.Machine
end

