-- ==== Sys2Proof/Machine/Template.lean ====
section
/-! DEFINITION. The execution templates of 41_step.md (R100, R101) and the skip chain (44_basic_conditional.md R144). A
meaning begins after its instruction word is fetched: the state's PC is one past it (R98). -/

namespace Sys2Proof.Machine

/-- How a meaning ends. -/
abbrev Result := Host.Outcome State Fault Refusal

/-- The write-back (41_step.md R105): the result through the location, then the rest of the instruction; a write through
a literal raises InvalidWriteTarget (R107), recorded for instruction `i` that began in `entry`. -/
def writeBack (i : Instr) (entry : State) (l : Loc) (v : Word) (s : State) (rest : State → State) : Result :=
  match l.write v s with
  | some t => .next (rest t)
  | none => .fault (.fatal (entry.faultBy .invalidWriteTarget i))

/-- A basic instruction that computes a result from `b` and `a` and has no EX rule (R100). -/
def computeResult (i : Instr) (b a : Operand) (f : Word → Word → Word) (s : State) : Result :=
  let r := resolveBoth b a s
  writeBack i s r.bloc (f r.b r.a) r.state id

/-- A basic instruction that computes a result and EX from `b`, `a` and EX; EX is written last (R100, R105). -/
def computeResultEx (i : Instr) (b a : Operand) (f g : Word → Word → Word → Word) (s : State) : Result :=
  let r := resolveBoth b a s
  writeBack i s r.bloc (f r.b r.a r.state.ex) r.state fun t => t.setEx (g r.b r.a r.state.ex)

/-- A basic instruction that copies `a` to `b`, which it does not read, and then does the rest (R100, R106). -/
def transfer (i : Instr) (b a : Operand) (rest : State → State) (s : State) : Result :=
  let r := resolveBoth b a s
  writeBack i s r.bloc r.a r.state rest

/-- Steps I and then J (45_basic_carry_transfer.md R152, R153). -/
def stepIndexRegs (f : Word → Word) (s : State) : State :=
  let t := s.setReg .i (f (s.getReg .i))
  t.setReg .j (f (t.getReg .j))

/-- The skip chain from PC, at most `fuel` skips: each word is stepped over by its length, and the chain ends after the
first that is not conditional (44_basic_conditional.md R144). `none`: all `fuel` skipped words were conditional. -/
def skipChain (m : Memory) : (fuel : Nat) → (pc : Word) → Option Word
  | 0, _ => none
  | fuel + 1, pc =>
    let w := Memory.read m pc.toNat
    let next := pc + BitVec.ofNat 16 (wordLength w)
    if isConditional w then skipChain m fuel next else some next

/-- A basic conditional (44_basic_conditional.md R135): no write, and the skip chain when the condition is false. The
bound of 65536 skips is exact (R145). -/
def conditional (b a : Operand) (cond : Word → Word → Bool) (s : State) : Result :=
  let r := resolveBoth b a s
  if cond r.b r.a then .next r.state
  else match skipChain r.state.mem memorySize r.state.pc with
    | some pc => .next (r.state.setPc pc)
    | none => .fault .skipChainNeverEnds

end Sys2Proof.Machine
end

