-- ==== Sys2Proof/Machine/Arith.lean ====
section
/-! DEFINITION. SET, ADD, SUB, MUL, MLI, DIV, DVI, MOD, MDI (spec/42_basic_arith.md). -/

namespace Sys2Proof.Machine

/-- SET (R110). -/
def execSet (b a : Operand) (s : State) : Result := transfer (.set b a) b a id s

/-- ADD (R111). -/
def execAdd (b a : Operand) (s : State) : Result :=
  computeResultEx (.add b a) b a (fun x y _ => addResult x y) (fun x y _ => addEx x y) s

/-- SUB (R112). -/
def execSub (b a : Operand) (s : State) : Result :=
  computeResultEx (.sub b a) b a (fun x y _ => subResult x y) (fun x y _ => subEx x y) s

/-- MUL (R113). -/
def execMul (b a : Operand) (s : State) : Result :=
  computeResultEx (.mul b a) b a (fun x y _ => mulResult x y) (fun x y _ => mulEx x y) s

/-- MLI (R114). -/
def execMli (b a : Operand) (s : State) : Result :=
  computeResultEx (.mli b a) b a (fun x y _ => mliResult x y) (fun x y _ => mliEx x y) s

/-- DIV (R115). -/
def execDiv (b a : Operand) (s : State) : Result :=
  computeResultEx (.div b a) b a (fun x y _ => divResult x y) (fun x y _ => divEx x y) s

/-- DVI (R116). -/
def execDvi (b a : Operand) (s : State) : Result :=
  computeResultEx (.dvi b a) b a (fun x y _ => dviResult x y) (fun x y _ => dviEx x y) s

/-- MOD (R117). -/
def execMod (b a : Operand) (s : State) : Result := computeResult (.mod b a) b a modResult s

/-- MDI (R118). -/
def execMdi (b a : Operand) (s : State) : Result := computeResult (.mdi b a) b a mdiResult s

end Sys2Proof.Machine
end

