-- ==== Sys2Proof/Machine/Bitwise.lean ====
section
/-! DEFINITION. AND, BOR, XOR, SHR, ASR, SHL (spec/43_basic_bitwise.md). -/

namespace Sys2Proof.Machine

/-- AND (R125). -/
def execAnd (b a : Operand) (s : State) : Result := computeResult (.and b a) b a andResult s

/-- BOR (R126). -/
def execBor (b a : Operand) (s : State) : Result := computeResult (.bor b a) b a borResult s

/-- XOR (R127). -/
def execXor (b a : Operand) (s : State) : Result := computeResult (.xor b a) b a xorResult s

/-- SHR (R128). -/
def execShr (b a : Operand) (s : State) : Result :=
  computeResultEx (.shr b a) b a (fun x y _ => shrResult x y) (fun x y _ => shrEx x y) s

/-- ASR (R129). -/
def execAsr (b a : Operand) (s : State) : Result :=
  computeResultEx (.asr b a) b a (fun x y _ => asrResult x y) (fun x y _ => asrEx x y) s

/-- SHL (R130). -/
def execShl (b a : Operand) (s : State) : Result :=
  computeResultEx (.shl b a) b a (fun x y _ => shlResult x y) (fun x y _ => shlEx x y) s

end Sys2Proof.Machine
end

