-- ==== Sys2Proof/Machine/CarryTransfer.lean ====
section
/-! DEFINITION. ADX, SBX, STI, STD (spec/45_basic_carry_transfer.md). -/

namespace Sys2Proof.Machine

/-- ADX (R150). -/
def execAdx (b a : Operand) (s : State) : Result := computeResultEx (.adx b a) b a adxResult adxEx s

/-- SBX, also spelt SBC (R151). -/
def execSbx (b a : Operand) (s : State) : Result := computeResultEx (.sbx b a) b a sbxResult sbxEx s

/-- STI: the write, then I and J up (R152). -/
def execSti (b a : Operand) (s : State) : Result := transfer (.sti b a) b a (stepIndexRegs fun w => w + 1) s

/-- STD: the write, then I and J down (R153). -/
def execStd (b a : Operand) (s : State) : Result := transfer (.std b a) b a (stepIndexRegs fun w => w - 1) s

end Sys2Proof.Machine
end

