-- ==== Sys2Proof/Machine/Conditional.lean ====
section
/-! DEFINITION. IFB, IFC, IFE, IFN, IFG, IFA, IFL, IFU (spec/44_basic_conditional.md). -/

namespace Sys2Proof.Machine

/-- IFB (R136). -/
def execIfb (b a : Operand) (s : State) : Result := conditional b a ifbHolds s

/-- IFC (R137). -/
def execIfc (b a : Operand) (s : State) : Result := conditional b a ifcHolds s

/-- IFE (R138). -/
def execIfe (b a : Operand) (s : State) : Result := conditional b a ifeHolds s

/-- IFN (R139). -/
def execIfn (b a : Operand) (s : State) : Result := conditional b a ifnHolds s

/-- IFG (R140). -/
def execIfg (b a : Operand) (s : State) : Result := conditional b a ifgHolds s

/-- IFA (R141). -/
def execIfa (b a : Operand) (s : State) : Result := conditional b a ifaHolds s

/-- IFL (R142). -/
def execIfl (b a : Operand) (s : State) : Result := conditional b a iflHolds s

/-- IFU (R143). -/
def execIfu (b a : Operand) (s : State) : Result := conditional b a ifuHolds s

end Sys2Proof.Machine
end

