-- ==== Sys2Proof/Machine/Special.lean ====
section
/-! DEFINITION. JSR, INT, IAG, IAS, RFI, IAQ, HWN, HWQ, HWI (spec/46_special.md). -/

namespace Sys2Proof.Machine

/-- JSR: pushes the live PC, which is the address of the instruction after it, and jumps (R161). -/
def execJsr (a : Operand) (s : State) : Result :=
  let r := resolveSource a s
  .next ((r.state.push r.state.pc).setPc r.val)

/-- INT: enqueues its message; a full queue raises InterruptQueueOverflow (R162). -/
def execInt (a : Operand) (s : State) : Result :=
  let r := resolveSource a s
  match r.state.enqueue r.val with
  | some t => .next t
  | none => .fault (.fatal (s.faultBy .interruptQueueOverflow (.int a)))

/-- IAG: writes IA through its operand (R163). -/
def execIag (a : Operand) (s : State) : Result :=
  let r := resolveSource a s
  writeBack (.iag a) s r.loc r.state.ia r.state id

/-- IAS: loads IA (R164). -/
def execIas (a : Operand) (s : State) : Result :=
  let r := resolveSource a s
  .next (r.state.setIa r.val)

/-- RFI: its operand is resolved and its value unused (R165). -/
def execRfi (a : Operand) (s : State) : Result := .next (resolveSource a s).state.returnFromInterrupt

/-- IAQ: zero enables dispatch, any other value disables it (R166). -/
def execIaq (a : Operand) (s : State) : Result :=
  let r := resolveSource a s
  .next (r.state.setIqe (r.val == 0))

/-- HWN: writes the number of devices through its operand (R167). -/
def execHwn (a : Operand) (s : State) : Result :=
  let r := resolveSource a s
  writeBack (.hwn a) s r.loc Config.hwDeviceCount r.state id

/-- HWQ (R168). -/
def execHwq (a : Operand) (s : State) : Result :=
  let r := resolveSource a s
  .next (r.state.hardwareQuery r.val)

/-- HWI (R169). -/
def execHwi (a : Operand) (s : State) : Result :=
  let r := resolveSource a s
  .next (r.state.hardwareInterrupt r.val)

end Sys2Proof.Machine
end

