-- ==== Sys2Proof/Machine/Cycle.lean ====
section
/-! DEFINITION. The fetch, decode, execute and fault part of a step (spec/41_step.md), which Step.lean calls. -/

namespace Sys2Proof.Machine

/-- Fetch, decode and execute one instruction from a state that has taken its interrupt (R95, R98). An invalid word raises
InvalidOpcode before any operand is resolved (R99). -/
def runInstruction (s : State) : Result :=
  match decode s.nextWord.1 with
  | .ok i => exec i s.nextWord.2
  | .error _ => .fault (.fatal { kind := .invalidOpcode, pc := s.pc, word := some s.nextWord.1 })

/-- What a fault leaves: the state the step started from, with `halt` recorded (R104). A step that is stuck stays
stuck, with no `halt` recorded (R97, 60_exceptions.md R187). -/
def settle (s0 : State) : Result → Result
  | .next t => .next t
  | .fault (.fatal r) => .next (s0.haltWith r)
  | .fault .skipChainNeverEnds => .fault .skipChainNeverEnds
  | .refused r => .refused r

/-- The step of a core that is not halted: at most one dispatch, then one instruction (R95, R108). -/
def runStep (s : State) : Result := settle s (runInstruction s.takeInterrupt)

/-- Whether the next step enters the interrupt handler before it fetches (60_exceptions.md R190, R191). -/
def State.entersHandler (s : State) : Bool := s.iqe && !s.queue.isEmpty && s.ia != 0

/-- The words of an instruction whose bits are `w` (bit 0 the least significant of the first word), padded with zero words
to the longest instruction, three words (30_encoding.md R58). -/
def tableWords (nbits w : Nat) : List Word :=
  let n := w % 2 ^ nbits
  [BitVec.ofNat 16 n, BitVec.ofNat 16 (n / 65536), BitVec.ofNat 16 (n / 4294967296)]

/-- The state with an instruction's words where the next step fetches. A halted core fetches nothing, so `halt` is
cleared; and where the next step would first enter the handler, the entry is done here, so that its pushes cannot
overwrite the words (log entry 9). -/
def State.placeAtFetch (s : State) (ws : List Word) : State :=
  let t := if s.entersHandler then s.takeInterrupt else s
  { t.writeWords t.pc ws with halt := none }

end Sys2Proof.Machine
end

