-- ==== Sys2Proof/Machine/Step.lean ====
section
/-! DEFINITION. The step (spec/41_step.md R95). -/

namespace Sys2Proof.Machine

/-- `step()`: a halted core changes nothing and reports its fault again (R96); any other runs one step. -/
def step (s : State) : Host.Outcome State Fault Refusal :=
  match s.halt with
  | some r => .fault (.fatal r)
  | none => runStep s

/-- The state with the instruction whose bits are `w` where the next step fetches its instruction. -/
def State.withFetchWord (s : State) (nbits w : Nat) : State := s.placeAtFetch (tableWords nbits w)

end Sys2Proof.Machine
end

