-- ==== Sys2Proof/Machine/HostActions.lean ====
section
/-! DEFINITION. What the host can do to the core, between steps (70_reset_and_hazards.md R218). The read accessors are the
fields of State, `State.getReg` and `State.readMem` (60_exceptions.md R204). -/

namespace Sys2Proof.Machine

/-- `deliver_interrupt(m)`: the enqueue primitive at once; an overflow halts with `(PC, none)` and no other change; a
delivery to a halted core is ignored (60_exceptions.md R207). -/
def State.deliverInterrupt (s : State) (m : Word) : State :=
  match s.halt with
  | some _ => s
  | none =>
    match s.enqueue m with
    | some t => t
    | none => s.haltWith { kind := .interruptQueueOverflow, pc := s.pc, word := none }

/-- The memory that holds an image from an address up and zero everywhere else. -/
def Memory.ofImage : Nat → List Word → Memory
  | _, [] => []
  | n, v :: vs => Memory.cons n v (Memory.ofImage (n + 1) vs)

/-- `set_program(image)`: memory is the image and then zeros, PC is 0, nothing else changes (70_reset_and_hazards.md
R216). -/
def State.setProgram (s : State) (image : List Word) : State := { s with mem := Memory.ofImage 0 image, pc := 0 }

/-- The words of an image file, each `lo + 256 * hi` of its two bytes (70_reset_and_hazards.md R217); a file of an odd
number of bytes is not described (91_not_in_source.md N27) and gives none. -/
def imageOfBytes : List (BitVec 8) → Option (List Word)
  | [] => some []
  | [_] => none
  | lo :: hi :: rest => (imageOfBytes rest).map fun ws => (hi ++ lo : BitVec 16) :: ws

/-- The host's actions that can change the core (R218). -/
inductive HostAction where
  | reset
  | setProgram (image : List Word)
  | step
  | deliverInterrupt (m : Word)
  deriving DecidableEq, Repr

/-- `reset()`: the whole state is the reset state (70_reset_and_hazards.md R210), but that the model's own counter goes on, so
that host draws after a reset are still fresh (log entry 7). -/
def State.resetNow (s : State) : State := { State.reset with hostDraws := s.hostDraws }

/-- One host action. An image longer than memory never reaches the core (R216). -/
def hostAct (act : HostAction) (s : State) : Result :=
  match act with
  | .reset => .next s.resetNow
  | .setProgram image => if memorySize < image.length then .refused .imageTooLong else .next (s.setProgram image)
  | .step => step s
  | .deliverInterrupt m => .next (s.deliverInterrupt m)

end Sys2Proof.Machine
end

