-- ==== Sys2Proof/Safety.lean ====
section
/-! DEFINITION. What claims are stated in: which instructions write what, the skip chain as a relation, the invariant of
the core's state, the states a host can bring it to, and a safe run. -/

namespace Sys2Proof.Machine

/-! ## What an instruction writes -/

/-- The operand an instruction writes through, if it writes one (41_step.md R107). -/
def destination : Instr → Option Operand
  | .set b _ => some b
  | .add b _ => some b
  | .sub b _ => some b
  | .mul b _ => some b
  | .mli b _ => some b
  | .div b _ => some b
  | .dvi b _ => some b
  | .mod b _ => some b
  | .mdi b _ => some b
  | .and b _ => some b
  | .bor b _ => some b
  | .xor b _ => some b
  | .shr b _ => some b
  | .asr b _ => some b
  | .shl b _ => some b
  | .adx b _ => some b
  | .sbx b _ => some b
  | .sti b _ => some b
  | .std b _ => some b
  | .iag a => some a
  | .hwn a => some a
  | .ifb _ _ => none
  | .ifc _ _ => none
  | .ife _ _ => none
  | .ifn _ _ => none
  | .ifg _ _ => none
  | .ifa _ _ => none
  | .ifl _ _ => none
  | .ifu _ _ => none
  | .jsr _ => none
  | .int _ => none
  | .ias _ => none
  | .rfi _ => none
  | .iaq _ => none
  | .hwq _ => none
  | .hwi _ => none

/-- An instruction that writes through a literal operand (60_exceptions.md R182). -/
def writesLiteral (i : Instr) : Bool :=
  match destination i with
  | some o => !writable o
  | none => false

/-- The basic instructions that write `b` and have no EX rule, but STI and STD (10_state.md R25). -/
def plainWriters (b a : Operand) : List Instr :=
  [.set b a, .mod b a, .mdi b a, .and b a, .bor b a, .xor b a]

/-- The basic instructions that have an EX rule (10_state.md R25, 41_step.md R105). -/
def exWriters (b a : Operand) : List Instr :=
  [.add b a, .sub b a, .mul b a, .mli b a, .div b a, .dvi b a, .shr b a, .asr b a, .shl b a, .adx b a, .sbx b a]

/-- The conditional instructions (44_basic_conditional.md R135). -/
def conditionals (b a : Operand) : List Instr :=
  [.ifb b a, .ifc b a, .ife b a, .ifn b a, .ifg b a, .ifa b a, .ifl b a, .ifu b a]

/-- The address a basic instruction's write of `b` stores to, if it stores: the one its write-back uses. -/
def storeAddress (b a : Operand) (s : State) : Option Word := (resolveBoth b a s).bloc.address

/-- The address IAG's or HWN's write of `a` stores to, if it stores: the one its write-back uses. -/
def sourceStoreAddress (a : Operand) (s : State) : Option Word := (resolveSource a s).loc.address

/-- SP after the operands of an instruction: a POP `a` adds one, a PUSH `b` takes one off (40_operands.md R83, R84). -/
def spAfterOperands (b a : Operand) (s : State) : Word :=
  s.sp + (if a = .pushPop then 1 else 0) - (if b = .pushPop then 1 else 0)

/-- The value a list of writes, applied from its head, leaves at a key: the last one for it, or the old value. -/
def lastWritten {κ : Type} [DecidableEq κ] (writes : List (κ × Word)) (key : κ) (old : Word) : Word :=
  writes.foldl (fun v e => if e.1 = key then e.2 else v) old

/-! ## The skip chain as a relation -/

/-- `SkipsTo m pc p`: from `pc`, the skip chain of a false conditional ends with PC at `p` (44_basic_conditional.md
R144). -/
inductive SkipsTo (m : Memory) : Word → Word → Prop where
  | last (pc : Word) : isConditional (Memory.read m pc.toNat) = false →
      SkipsTo m pc (pc + BitVec.ofNat 16 (wordLength (Memory.read m pc.toNat)))
  | more (pc p : Word) : isConditional (Memory.read m pc.toNat) = true →
      SkipsTo m (pc + BitVec.ofNat 16 (wordLength (Memory.read m pc.toNat))) p → SkipsTo m pc p

/-! ## The invariant -/

/-- A fault record the core can hold (60_exceptions.md R180): InvalidOpcode records an invalid word, InvalidWriteTarget the
word of an instruction that writes through a literal, InterruptQueueOverflow the word of an INT, or none for a host
delivery. -/
def FaultRecord.Explained (r : FaultRecord) : Prop :=
  match r.kind, r.word with
  | .invalidOpcode, some w => ∃ e, decode w = .error e
  | .invalidWriteTarget, some w => ∃ i, decode w = .ok i ∧ writesLiteral i = true
  | .interruptQueueOverflow, some w => ∃ a, decode w = .ok (.int a)
  | .interruptQueueOverflow, none => True
  | .invalidOpcode, none => False
  | .invalidWriteTarget, none => False

/-- The invariant of the core: memory in its canonical form, at most QCAP messages (10_state.md R28), and a halt record
that its kind explains, with the queue full if it says overflow (60_exceptions.md R180, R183, R184). -/
structure State.Inv (s : State) : Prop where
  mem : Memory.wf s.mem = true
  queue : s.queue.length ≤ queueCapacity
  halt : ∀ r, s.halt = some r →
    r.Explained ∧ (r.kind = .interruptQueueOverflow → s.queue.length = queueCapacity)

/-- The states the host's actions bring the core to from reset (70_reset_and_hazards.md R218). -/
inductive Reachable : State → Prop where
  | reset : Reachable State.reset
  | act (s t : State) (h : HostAction) : Reachable s → hostAct h s = .next t → Reachable t

/-- A run of `n` steps that no fatal fault ends (60_exceptions.md R180) and no endless skip chain holds up. -/
def SafeRun (n : Nat) (s : State) : Prop := ∃ t : State, Sys2Proof.core.run n s = .next t ∧ t.halt = none

end Sys2Proof.Machine
end

