-- ==== Sys2Proof/Certificates/Slice0/Obligations.lean ====
section
/-! DEFINITION. The statements for the provers. -/

open Sys2Proof Sys2Proof.Machine

/-! ## Encoding -/

/-- Every well-formed instruction is what its own word decodes to (30_encoding.md R66, R73). -/
def Obligations.DecodeOfEncodeIsTheInstruction : Prop :=
  ∀ i : Instr, i.wf = true → decode (encode i) = .ok i

/-- A word that decodes is the word of the well-formed instruction it decodes to (30_encoding.md R66, R73): with the one
above, valid words and well-formed instructions correspond one to one. -/
def Obligations.DecodedWordIsItsEncoding : Prop :=
  ∀ (w : Word) (i : Instr), decode w = .ok i → i.wf = true ∧ encode i = w

/-- One word for each of the 36 rows of the opcode table, the spec's own example words among them, and the whole selector
map (30_encoding.md R57, R60, R63, R64, R70, R73; 95_test_vectors.md). The numbers of all rows but SET, ADD and MOD are the
spec's decision D27, log entry 11. -/
def Obligations.ExampleWordsDecode : Prop :=
  (decode 0x7c01 = .ok (.set (.reg .a) .nextWordLiteral) ∧
   decode 0x7c02 = .ok (.add (.reg .a) .nextWordLiteral) ∧
   decode 0x9003 = .ok (.sub (.reg .a) (.inlineLiteral 3)) ∧
   decode 0x9404 = .ok (.mul (.reg .a) (.inlineLiteral 4)) ∧
   decode 0x8005 = .ok (.mli (.reg .a) (.inlineLiteral 0xFFFF)) ∧
   decode 0x8c06 = .ok (.div (.reg .a) (.inlineLiteral 2)) ∧
   decode 0x7c07 = .ok (.dvi (.reg .a) .nextWordLiteral) ∧
   decode 0x7c08 = .ok (.mod (.reg .a) .nextWordLiteral) ∧
   decode 0xc409 = .ok (.mdi (.reg .a) (.inlineLiteral 16)) ∧
   decode 0x840a = .ok (.and (.reg .a) (.inlineLiteral 0)) ∧
   decode 0x7c0b = .ok (.bor (.reg .a) .nextWordLiteral) ∧
   decode 0x000c = .ok (.xor (.reg .a) (.reg .a)) ∧
   decode 0x8bad = .ok (.shr .ex (.inlineLiteral 1)) ∧
   decode 0x940e = .ok (.asr (.reg .a) (.inlineLiteral 4)) ∧
   decode 0xc80f = .ok (.shl (.reg .a) (.inlineLiteral 17))) ∧
  (decode 0x7c10 = .ok (.ifb (.reg .a) .nextWordLiteral) ∧
   decode 0x7c11 = .ok (.ifc (.reg .a) .nextWordLiteral) ∧
   decode 0x8c12 = .ok (.ife (.reg .a) (.inlineLiteral 2)) ∧
   decode 0x8413 = .ok (.ifn (.reg .a) (.inlineLiteral 0)) ∧
   decode 0x7c14 = .ok (.ifg (.reg .a) .nextWordLiteral) ∧
   decode 0x7c15 = .ok (.ifa (.reg .a) .nextWordLiteral) ∧
   decode 0x7c16 = .ok (.ifl (.reg .a) .nextWordLiteral) ∧
   decode 0x7c17 = .ok (.ifu (.reg .a) .nextWordLiteral)) ∧
  (decode 0x8c1a = .ok (.adx (.reg .a) (.inlineLiteral 2)) ∧
   decode 0x901b = .ok (.sbx (.reg .a) (.inlineLiteral 3)) ∧
   decode 0x3dde = .ok (.sti (.regPointer .i) (.regPointer .j)) ∧
   decode 0x1c1f = .ok (.std (.reg .a) (.reg .j))) ∧
  (decode 0x7c20 = .ok (.jsr .nextWordLiteral) ∧
   decode 0x9900 = .ok (.int (.inlineLiteral 5)) ∧
   decode 0x0120 = .ok (.iag (.reg .a)) ∧
   decode 0x8540 = .ok (.ias (.inlineLiteral 0)) ∧
   decode 0x6160 = .ok (.rfi .pushPop) ∧
   decode 0x8980 = .ok (.iaq (.inlineLiteral 1)) ∧
   decode 0x7a00 = .ok (.hwn .nextWordPointer) ∧
   decode 0x8a20 = .ok (.hwq (.inlineLiteral 1)) ∧
   decode 0x8a40 = .ok (.hwi (.inlineLiteral 1))) ∧
  (∀ e ∈ [(0, Reg.a), (1, .b), (2, .c), (3, .x), (4, .y), (5, .z), (6, .i), (7, .j)],
    decodeSelector (BitVec.ofNat 6 e.1) = .reg e.2 ∧
    decodeSelector (BitVec.ofNat 6 (0x08 + e.1)) = .regPointer e.2 ∧
    decodeSelector (BitVec.ofNat 6 (0x10 + e.1)) = .regNextWordPointer e.2) ∧
  (decodeSelector 0x18 = .pushPop ∧ decodeSelector 0x19 = .peek ∧ decodeSelector 0x1A = .pick ∧
   decodeSelector 0x1B = .sp ∧ decodeSelector 0x1C = .pc ∧ decodeSelector 0x1D = .ex ∧
   decodeSelector 0x1E = .nextWordPointer ∧ decodeSelector 0x1F = .nextWordLiteral) ∧
  (∀ sel : BitVec 6, 0x20 ≤ sel.toNat →
    decodeSelector sel = .inlineLiteral (BitVec.ofInt 16 ((sel.toNat : Int) - 0x21)))

/-- The invalid encodings are exactly the unassigned opcodes of 30_encoding.md R65. -/
def Obligations.InvalidWordsAreTheUnassignedOpcodes : Prop :=
  ∀ w : Word, (∃ e, decode w = .error e) ↔
    (opField w ∈ [0x18#5, 0x19#5, 0x1C#5, 0x1D#5] ∨
     (opField w = 0 ∧ bField w ∈ [0x00#5, 0x02#5, 0x03#5, 0x04#5, 0x05#5, 0x06#5, 0x07#5, 0x0D#5, 0x0E#5, 0x0F#5,
       0x13#5, 0x14#5, 0x15#5, 0x16#5, 0x17#5, 0x18#5, 0x19#5, 0x1A#5, 0x1B#5, 0x1C#5, 0x1D#5, 0x1E#5, 0x1F#5]))

/-- The words of an instruction in memory order are as many as the length read from its first word, one to three, and
the first of them is its instruction word (30_encoding.md R58, R73). -/
def Obligations.EncodedWordsFillTheLength : Prop :=
  ∀ (i : Instr) (na nb : Word), i.wf = true →
    (encodeWords i na nb).length = wordLength (encode i) ∧ 1 ≤ i.length ∧ i.length ≤ 3 ∧
    (encodeWords i na nb).head? = some (encode i)

/-! ## The step -/

/-- A step runs the decoded instruction (41_step.md R95, R104): after the dispatch, the word at PC is fetched, PC moves
past it, and the step is `exec` of the instruction there; a fatal fault leaves the state the step started from with
`halt` recorded, and a stuck instruction is a stuck step. -/
def Obligations.StepRunsTheDecodedInstruction : Prop :=
  ∀ (s : State) (i : Instr), s.halt = none →
    decode (s.takeInterrupt.readMem s.takeInterrupt.pc) = .ok i →
    (∀ t, exec i (s.takeInterrupt.setPc (s.takeInterrupt.pc + 1)) = .next t → step s = .next t) ∧
    (∀ r, exec i (s.takeInterrupt.setPc (s.takeInterrupt.pc + 1)) = .fault (.fatal r) → step s = .next (s.haltWith r)) ∧
    (exec i (s.takeInterrupt.setPc (s.takeInterrupt.pc + 1)) = .fault .skipChainNeverEnds →
      step s = .fault .skipChainNeverEnds)

/-- Fetching an invalid word halts the core with InvalidOpcode, recording the address and the word, and changes nothing
else, not even by the dispatch before it (41_step.md R99, R104; 60_exceptions.md R181, R184). -/
def Obligations.InvalidWordHaltsTheCore : Prop :=
  ∀ (s : State) (e : DecodeError), s.halt = none →
    decode (s.takeInterrupt.readMem s.takeInterrupt.pc) = .error e →
    step s = .next (s.haltWith
      { kind := .invalidOpcode, pc := s.takeInterrupt.pc,
        word := some (s.takeInterrupt.readMem s.takeInterrupt.pc) })

/-- A step that ends halted changed nothing but `halt` (41_step.md R104). -/
def Obligations.FaultingStepChangesOnlyHalt : Prop :=
  ∀ (s t : State) (r : FaultRecord), step s = .next t → t.halt = some r → t = s.haltWith r

/-- A core that is not halted always completes its step, except in the stuck case, which only a conditional's endless
skip chain reaches (41_step.md R97): no instruction is refused. -/
def Obligations.StepCompletesUnlessSkipChainIsEndless : Prop :=
  ∀ s : State, s.halt = none →
    (∃ t, step s = .next t) ∨
    (step s = .fault .skipChainNeverEnds ∧
      isConditional (s.takeInterrupt.readMem s.takeInterrupt.pc) = true)

/-- A halted core's step reports its fault again, and of the host's actions only reset clears `halt` (41_step.md R96,
70_reset_and_hazards.md R210). -/
def Obligations.OnlyResetClearsHalt : Prop :=
  ∀ (s : State) (r : FaultRecord), s.halt = some r →
    step s = .fault (.fatal r) ∧
    ∀ (h : HostAction) (t : State), h ≠ .reset → hostAct h s = .next t → t.halt = some r

/-- Every shorter run of a safe run is safe: a fault is never recovered from by stepping (41_step.md R96). -/
def Obligations.SafeRunsArePrefixClosed : Prop :=
  ∀ (n k : Nat) (s : State), SafeRun (n + k) s → SafeRun n s

/-- PC after an instruction that does not write PC and is not a conditional: the address of the following instruction
(41_step.md R102). `s.pc` is one past the instruction word. -/
def Obligations.PcEndsPastTheInstruction : Prop :=
  ∀ (i : Instr) (s t : State), i.wf = true → isConditional (encode i) = false → destination i ≠ some .pc →
    (∀ a, i ≠ .jsr a ∧ i ≠ .rfi a) → exec i s = .next t →
    t.pc = s.pc - 1 + BitVec.ofNat 16 i.length

/-! ## Operand classes -/

/-- Each operand class resolves to the location its rule names, with its side effect on PC and SP (40_operands.md R80 to
R92). The order of POP and PUSH effects inside the class is the rules' own. -/
def Obligations.OperandClassesResolveAsTheirRules : Prop :=
  ∀ (s : State) (p : Position) (r : Reg) (v : Word),
    resolve (.reg r) p s = (.reg r, s) ∧
    resolve (.regPointer r) p s = (.mem (s.getReg r), s) ∧
    resolve (.regNextWordPointer r) p s = (.mem (s.getReg r + s.readMem s.pc), s.setPc (s.pc + 1)) ∧
    resolve .pushPop .a s = (.mem s.sp, s.setSp (s.sp + 1)) ∧
    resolve .pushPop .b s = (.mem (s.sp - 1), s.setSp (s.sp - 1)) ∧
    resolve .peek p s = (.mem s.sp, s) ∧
    resolve .pick p s = (.mem (s.sp + s.readMem s.pc), s.setPc (s.pc + 1)) ∧
    resolve .sp p s = (.sp, s) ∧
    resolve .pc p s = (.pc, s) ∧
    resolve .ex p s = (.ex, s) ∧
    resolve .nextWordPointer p s = (.mem (s.readMem s.pc), s.setPc (s.pc + 1)) ∧
    resolve .nextWordLiteral p s = (.lit (s.readMem s.pc), s.setPc (s.pc + 1)) ∧
    resolve (.inlineLiteral v) .a s = (.lit v, s)

/-- `a` is resolved and read before `b` is resolved (40_operands.md R77, the spec's decision D1): for every `b` and `a`, the
word of `a` is read in the state its own resolution leaves, and `b` is resolved from that state. So, when both consume a
next word, `SET [n], [k]` takes `k` from the first next word and `n` from the second; and `SET PUSH, SP` stores the old SP
(70_reset_and_hazards.md R221). -/
def Obligations.SourceIsResolvedBeforeDestination : Prop :=
  (∀ (b a : Operand) (s : State),
    (resolveBoth b a s).a = (resolve a .a s).1.read (resolve a .a s).2 ∧
    (resolveBoth b a s).bloc = (resolve b .b (resolve a .a s).2).1 ∧
    (resolveBoth b a s).state = (resolve b .b (resolve a .a s).2).2 ∧
    (resolveBoth b a s).b =
      (resolve b .b (resolve a .a s).2).1.read (resolve b .b (resolve a .a s).2).2) ∧
  ∀ s : State, Memory.wf s.mem = true →
    (∃ t, exec (.set .nextWordPointer .nextWordPointer) s = .next t ∧
      t.readMem (s.readMem (s.pc + 1)) = s.readMem (s.readMem s.pc) ∧ t.pc = s.pc + 2) ∧
    (∃ t, exec (.set .pushPop .sp) s = .next t ∧ t.readMem (s.sp - 1) = s.sp ∧ t.sp = s.sp - 1)

/-! ## Basic instructions: results (each is also the completion statement of its instructions) -/

/-- SET (42_basic_arith.md R110): `b` ends holding `a`, EX is unchanged unless it is `b`, and a literal `b` raises
InvalidWriteTarget. -/
def Obligations.SetCopiesItsSource : Prop :=
  ∀ (b a : Operand) (s : State), Memory.wf s.mem = true →
    opField (encode (.set b a)) = 0x01 ∧
    (writable b = true → ∃ t, exec (.set b a) s = .next t ∧
      (resolveBoth b a s).bloc.read t = (resolveBoth b a s).a ∧ (b ≠ .ex → t.ex = s.ex)) ∧
    (writable b = false → ∃ r, exec (.set b a) s = .fault (.fatal r) ∧ r.kind = .invalidWriteTarget)

/-- ADD (42_basic_arith.md R111): the sum modulo 65536 in `b`, EX 1 if the true sum is above 0xFFFF and else 0, also when
`b` is EX, and a literal `b` raises InvalidWriteTarget. -/
def Obligations.AddWritesSumAndCarry : Prop :=
  ∀ (b a : Operand) (s : State), Memory.wf s.mem = true →
    opField (encode (.add b a)) = 0x02 ∧
    (writable b = true → ∃ t, exec (.add b a) s = .next t ∧
      (b ≠ .ex → (resolveBoth b a s).bloc.read t = (resolveBoth b a s).b + (resolveBoth b a s).a) ∧
      t.ex = if (resolveBoth b a s).b.toNat + (resolveBoth b a s).a.toNat > 0xFFFF then 1 else 0) ∧
    (writable b = false → ∃ r, exec (.add b a) s = .fault (.fatal r) ∧ r.kind = .invalidWriteTarget)

/-- SUB (42_basic_arith.md R112): the difference modulo 65536 in `b`, EX 0xFFFF if the true difference is negative and
else 0, also when `b` is EX, and a literal `b` raises InvalidWriteTarget. -/
def Obligations.SubWritesDifferenceAndBorrow : Prop :=
  ∀ (b a : Operand) (s : State), Memory.wf s.mem = true →
    opField (encode (.sub b a)) = 0x03 ∧
    (writable b = true → ∃ t, exec (.sub b a) s = .next t ∧
      (b ≠ .ex → (resolveBoth b a s).bloc.read t = (resolveBoth b a s).b - (resolveBoth b a s).a) ∧
      t.ex = if (resolveBoth b a s).b.toNat < (resolveBoth b a s).a.toNat then 0xFFFF else 0) ∧
    (writable b = false → ∃ r, exec (.sub b a) s = .fault (.fatal r) ∧ r.kind = .invalidWriteTarget)

/-- MUL (42_basic_arith.md R113): the low word of the unsigned product in `b`, its high word in EX, and a literal `b`
raises InvalidWriteTarget. -/
def Obligations.MulWritesLowAndHighWord : Prop :=
  ∀ (b a : Operand) (s : State), Memory.wf s.mem = true →
    opField (encode (.mul b a)) = 0x04 ∧
    (writable b = true → ∃ t, exec (.mul b a) s = .next t ∧
      (b ≠ .ex → (resolveBoth b a s).bloc.read t = (resolveBoth b a s).b * (resolveBoth b a s).a) ∧
      t.ex.toNat * 65536 + ((resolveBoth b a s).b * (resolveBoth b a s).a).toNat =
        (resolveBoth b a s).b.toNat * (resolveBoth b a s).a.toNat) ∧
    (writable b = false → ∃ r, exec (.mul b a) s = .fault (.fatal r) ∧ r.kind = .invalidWriteTarget)

/-- MLI (42_basic_arith.md R114, whose exact high word is the spec's decision D9): the low word of the signed product in
`b`, and EX and that word together are its 32-bit two's complement. -/
def Obligations.MliWritesSignedProduct : Prop :=
  ∀ (b a : Operand) (s : State), Memory.wf s.mem = true → writable b = true →
    ∃ t, exec (.mli b a) s = .next t ∧
      (b ≠ .ex → (resolveBoth b a s).bloc.read t = (resolveBoth b a s).b * (resolveBoth b a s).a) ∧
      (t.ex ++ ((resolveBoth b a s).b * (resolveBoth b a s).a) : BitVec 32) =
        (resolveBoth b a s).b.signExtend 32 * (resolveBoth b a s).a.signExtend 32

/-- DIV (42_basic_arith.md R115): the unsigned quotient rounded down in `b` and its first 16 fraction bits in EX, both 0 on
division by zero, and a literal `b` raises InvalidWriteTarget. -/
def Obligations.DivWritesQuotientAndFraction : Prop :=
  ∀ (b a : Operand) (s : State), Memory.wf s.mem = true →
    opField (encode (.div b a)) = 0x06 ∧
    (writable b = true → ∃ t, exec (.div b a) s = .next t ∧
      (b ≠ .ex → ((resolveBoth b a s).bloc.read t).toNat =
        if (resolveBoth b a s).a = 0 then 0 else (resolveBoth b a s).b.toNat / (resolveBoth b a s).a.toNat) ∧
      t.ex.toNat = if (resolveBoth b a s).a = 0 then 0
        else (resolveBoth b a s).b.toNat * 65536 / (resolveBoth b a s).a.toNat % 65536) ∧
    (writable b = false → ∃ r, exec (.div b a) s = .fault (.fatal r) ∧ r.kind = .invalidWriteTarget)

/-- DVI (42_basic_arith.md R116, whose EX formula is the spec's decision D9): the signed quotient truncated toward zero in
`b` and its signed fraction in EX, both 0 on division by zero. -/
def Obligations.DviWritesSignedQuotientAndFraction : Prop :=
  ∀ (b a : Operand) (s : State), Memory.wf s.mem = true → writable b = true →
    ∃ t, exec (.dvi b a) s = .next t ∧
      (b ≠ .ex → (resolveBoth b a s).bloc.read t = (resolveBoth b a s).b.sdiv (resolveBoth b a s).a) ∧
      t.ex = (((resolveBoth b a s).b ++ 0#16 : BitVec 32).sdiv ((resolveBoth b a s).a.signExtend 32)).setWidth 16

/-- MOD (42_basic_arith.md R117): the unsigned remainder in `b`, 0 on modulo by zero, EX unchanged unless it is `b`, and a
literal `b` raises InvalidWriteTarget. -/
def Obligations.ModWritesRemainder : Prop :=
  ∀ (b a : Operand) (s : State), Memory.wf s.mem = true →
    opField (encode (.mod b a)) = 0x08 ∧
    (writable b = true → ∃ t, exec (.mod b a) s = .next t ∧
      ((resolveBoth b a s).bloc.read t).toNat =
        (if (resolveBoth b a s).a = 0 then 0 else (resolveBoth b a s).b.toNat % (resolveBoth b a s).a.toNat) ∧
      (b ≠ .ex → t.ex = s.ex)) ∧
    (writable b = false → ∃ r, exec (.mod b a) s = .fault (.fatal r) ∧ r.kind = .invalidWriteTarget)

/-- MDI (42_basic_arith.md R118, with the spec's decision D9 at -32768 and -1): the remainder of the signed division
truncated toward zero, whose sign follows the dividend, 0 on modulo by zero; EX unchanged unless it is `b`. -/
def Obligations.MdiWritesSignedRemainder : Prop :=
  ∀ (b a : Operand) (s : State), Memory.wf s.mem = true → writable b = true →
    ∃ t, exec (.mdi b a) s = .next t ∧
      (resolveBoth b a s).bloc.read t =
        (if (resolveBoth b a s).a = 0 then 0 else (resolveBoth b a s).b.srem (resolveBoth b a s).a) ∧
      (b ≠ .ex → t.ex = s.ex)

/-- AND, BOR and XOR (43_basic_bitwise.md R125, R126, R127): the bitwise result in `b`, bit by bit, EX unchanged unless it
is `b`, and a literal `b` raises InvalidWriteTarget. -/
def Obligations.AndBorXorWriteBitwiseResults : Prop :=
  ∀ (b a : Operand) (s : State) (f : Bool → Bool → Bool) (i : Instr), Memory.wf s.mem = true →
    (i, f) ∈ [(Instr.and b a, and), (Instr.bor b a, or), (Instr.xor b a, xor)] →
    opField (encode (.and b a)) = 0x0A ∧ opField (encode (.bor b a)) = 0x0B ∧ opField (encode (.xor b a)) = 0x0C ∧
    (writable b = true → ∃ t, exec i s = .next t ∧
      (∀ n, ((resolveBoth b a s).bloc.read t).getLsbD n =
        f ((resolveBoth b a s).b.getLsbD n) ((resolveBoth b a s).a.getLsbD n)) ∧
      (b ≠ .ex → t.ex = s.ex)) ∧
    (writable b = false → ∃ r, exec i s = .fault (.fatal r) ∧ r.kind = .invalidWriteTarget)

/-- SHR and ASR (43_basic_bitwise.md R128, R129, with the spec's decision D8 for large amounts): the logical or the arithmetic
shift in `b`, and in EX the bits shifted out of the raw bits of `b`, left-aligned, for every amount. -/
def Obligations.RightShiftsWriteShiftAndBitsOut : Prop :=
  ∀ (b a : Operand) (s : State) (i : Instr) (v : Word), Memory.wf s.mem = true → writable b = true →
    (i, v) ∈ [(Instr.shr b a, (resolveBoth b a s).b >>> (resolveBoth b a s).a.toNat),
              (Instr.asr b a, (resolveBoth b a s).b.sshiftRight (resolveBoth b a s).a.toNat)] →
    ∃ t, exec i s = .next t ∧
      (b ≠ .ex → (resolveBoth b a s).bloc.read t = v) ∧
      t.ex = (((resolveBoth b a s).b ++ 0#16 : BitVec 32) >>> (resolveBoth b a s).a.toNat).setWidth 16

/-- SHL (43_basic_bitwise.md R130, with the spec's decision D8 for large amounts): EX and `b` together are the low 32 bits
of the shift of `b`, for every amount. -/
def Obligations.ShlWritesShiftAndBitsOut : Prop :=
  ∀ (b a : Operand) (s : State), Memory.wf s.mem = true → writable b = true →
    ∃ t, exec (.shl b a) s = .next t ∧
      (b ≠ .ex → (resolveBoth b a s).bloc.read t = (resolveBoth b a s).b <<< (resolveBoth b a s).a.toNat) ∧
      t.ex = (((resolveBoth b a s).b.setWidth 32 <<< (resolveBoth b a s).a.toNat) >>> 16).setWidth 16

/-- ADX (45_basic_carry_transfer.md R150, with the spec's decision D10 on how EX is read): `b + a + EX` in `b`, EX 1 if the
true sum is above 0xFFFF and else 0. -/
def Obligations.AdxAddsTheCarry : Prop :=
  ∀ (b a : Operand) (s : State), Memory.wf s.mem = true → writable b = true →
    ∃ t, exec (.adx b a) s = .next t ∧
      (b ≠ .ex → (resolveBoth b a s).bloc.read t = (resolveBoth b a s).b + (resolveBoth b a s).a + s.ex) ∧
      t.ex = if (resolveBoth b a s).b.toNat + (resolveBoth b a s).a.toNat + s.ex.toNat > 0xFFFF then 1 else 0

/-- SBX (45_basic_carry_transfer.md R151, with the spec's decision D10): `b - a + EX` in `b`, EX 0xFFFF exactly when the
true result is below 0 and else 0, also above 0xFFFF. -/
def Obligations.SbxAddsTheBorrow : Prop :=
  ∀ (b a : Operand) (s : State), Memory.wf s.mem = true → writable b = true →
    ∃ t, exec (.sbx b a) s = .next t ∧
      (b ≠ .ex → (resolveBoth b a s).bloc.read t = (resolveBoth b a s).b - (resolveBoth b a s).a + s.ex) ∧
      t.ex = if (resolveBoth b a s).b.toNat + s.ex.toNat < (resolveBoth b a s).a.toNat then 0xFFFF else 0

/-- STI and STD (45_basic_carry_transfer.md R152, R153): `a` is written through the location of `b` fixed before I and J
step, then I and J go up or down by one, also when one of them is `b`; EX is unchanged unless it is `b`; a literal `b`
raises InvalidWriteTarget. -/
def Obligations.IndexTransfersCopyThenStep : Prop :=
  ∀ (b a : Operand) (s : State) (i : Instr) (d : Word), Memory.wf s.mem = true →
    (i, d) ∈ [(Instr.sti b a, 1), (Instr.std b a, -1)] →
    opField (encode (.sti b a)) = 0x1E ∧ opField (encode (.std b a)) = 0x1F ∧
    (writable b = true → ∃ t, exec i s = .next t ∧
      (b ≠ .reg .i → b ≠ .reg .j → (resolveBoth b a s).bloc.read t = (resolveBoth b a s).a) ∧
      t.getReg .i = (if b = .reg .i then (resolveBoth b a s).a else s.getReg .i) + d ∧
      t.getReg .j = (if b = .reg .j then (resolveBoth b a s).a else s.getReg .j) + d ∧
      (b ≠ .ex → t.ex = s.ex)) ∧
    (writable b = false → ∃ r, exec i s = .fault (.fatal r) ∧ r.kind = .invalidWriteTarget)

/-- ADD then SUB of the same `a` restores a register, with or without overflow (42_basic_arith.md R119), for an `a` that the
ADD does not change. -/
def Obligations.AddThenSubRestores : Prop :=
  ∀ (r : Reg) (a : Operand) (s : State), ((∃ v, a = .inlineLiteral v) ∨ ∃ q, a = .reg q ∧ q ≠ r) →
    ∃ t u, exec (.add (.reg r) a) s = .next t ∧ exec (.sub (.reg r) a) t = .next u ∧ u.getReg r = s.getReg r

/-- `ADD p, l` then `ADX q, h` adds the pair (h, l) to the pair (q, p) as 32-bit numbers (45_basic_carry_transfer.md
R154). -/
def Obligations.AddThenAdxAddsPairs : Prop :=
  ∀ (p q l h : Reg) (s : State), p ≠ q → h ≠ p →
    ∃ t u, exec (.add (.reg p) (.reg l)) s = .next t ∧ exec (.adx (.reg q) (.reg h)) t = .next u ∧
      (u.getReg q ++ u.getReg p : BitVec 32) = (s.getReg q ++ s.getReg p) + (s.getReg h ++ s.getReg l)

/-! ## Conditionals -/

/-- The eight conditionals (44_basic_conditional.md R135 to R144; the conditions are the spec's decision D28): when the
condition of the two words holds, only the operands' own effects happen; when it fails, PC goes to the end of the skip
chain; and where the chain never ends, the instruction is stuck. -/
def Obligations.ConditionalsExecuteOrSkip : Prop :=
  ∀ (b a : Operand) (s : State) (i : Instr) (holds : Prop),
    (i, holds) ∈ [
      (Instr.ifb b a, (resolveBoth b a s).b &&& (resolveBoth b a s).a ≠ 0),
      (Instr.ifc b a, (resolveBoth b a s).b &&& (resolveBoth b a s).a = 0),
      (Instr.ife b a, (resolveBoth b a s).b = (resolveBoth b a s).a),
      (Instr.ifn b a, (resolveBoth b a s).b ≠ (resolveBoth b a s).a),
      (Instr.ifg b a, (resolveBoth b a s).a < (resolveBoth b a s).b),
      (Instr.ifa b a, (resolveBoth b a s).a.slt (resolveBoth b a s).b = true),
      (Instr.ifl b a, (resolveBoth b a s).b < (resolveBoth b a s).a),
      (Instr.ifu b a, (resolveBoth b a s).b.slt (resolveBoth b a s).a = true)] →
    (holds → exec i s = .next (resolveBoth b a s).state) ∧
    (¬holds → ∀ p, SkipsTo s.mem (resolveBoth b a s).state.pc p →
      exec i s = .next ((resolveBoth b a s).state.setPc p)) ∧
    (¬holds → (∀ p, ¬SkipsTo s.mem (resolveBoth b a s).state.pc p) → exec i s = .fault .skipChainNeverEnds)

/-- The bounded skip chain ends exactly where the chain of the rules ends, if it ends at all: the bound of 65536 is exact
(44_basic_conditional.md R144, R145). -/
def Obligations.SkipChainBoundIsExact : Prop :=
  ∀ (m : Memory) (pc p : Word), skipChain m memorySize pc = some p ↔ SkipsTo m pc p

/-! ## Special instructions -/

/-- JSR (46_special.md R161, with the spec's decisions D1 and D2 on the live PC): the address of the instruction after it is
pushed and PC is `a`. -/
def Obligations.JsrPushesTheReturnAddress : Prop :=
  ∀ (a : Operand) (s : State), Memory.wf s.mem = true → a.wfAs .a = true →
    ∃ t, exec (.jsr a) s = .next t ∧
      t.pc = (resolveSource a s).val ∧
      t.sp = (resolveSource a s).state.sp - 1 ∧
      t.readMem t.sp = s.pc - 1 + BitVec.ofNat 16 (Instr.length (.jsr a))

/-- INT (46_special.md R162, with INT_WHILE_DISABLED = enqueue, the spec's decision D12, whether or not dispatch is
enabled): the message goes to the tail of Q, or a full Q raises InterruptQueueOverflow (60_exceptions.md R189). -/
def Obligations.IntQueuesItsMessage : Prop :=
  ∀ (a : Operand) (s : State),
    (s.queue.length < 256 → ∃ t, exec (.int a) s = .next t ∧ t.queue = s.queue ++ [(resolveSource a s).val]) ∧
    (256 ≤ s.queue.length → exec (.int a) s =
      .fault (.fatal { kind := .interruptQueueOverflow, pc := s.pc - 1, word := some (encode (.int a)) }))

/-- IAS (46_special.md R164): IA is `a`, nothing else changes after the operand, and with IA = 0 every later dispatch discards its message (60_exceptions.md R191). -/
def Obligations.IasSetsIa : Prop :=
  ∀ (a : Operand) (s : State),
    bField (encode (.ias a)) = 0x0A ∧ opField (encode (.ias a)) = 0 ∧
    exec (.ias a) s = .next ((resolveSource a s).state.setIa (resolveSource a s).val) ∧
    ((resolveSource a s).val = 0 → ∀ u : State, u.ia = (resolveSource a s).val → ∀ m, u.deliverMessage m = u)

/-- RFI (46_special.md R165, whose operand is the spec's decision D16): IQE set, A then PC popped, SP up by two, after the
operand's own effects. -/
def Obligations.RfiPopsAThenPc : Prop :=
  ∀ (a : Operand) (s : State), ∃ t, exec (.rfi a) s = .next t ∧ t.iqe = true ∧
    t.getReg .a = s.readMem (resolveSource a s).state.sp ∧
    t.pc = s.readMem ((resolveSource a s).state.sp + 1) ∧
    t.sp = (resolveSource a s).state.sp + 2

/-- IAQ (46_special.md R166, the spec's decision D15): IQE is 1 exactly when `a` is 0. -/
def Obligations.IaqSwitchesDispatch : Prop :=
  ∀ (a : Operand) (s : State), ∃ t, exec (.iaq a) s = .next t ∧ (t.iqe = true ↔ (resolveSource a s).val = 0)

/-- IAG and HWN (46_special.md R163, R167, with the spec's decisions D7 and D19): the operand ends holding IA, or the number
of devices, whatever it is; a literal operand raises InvalidWriteTarget. -/
def Obligations.IagAndHwnWriteTheirOperand : Prop :=
  ∀ (a : Operand) (s : State) (i : Instr) (v : Word), Memory.wf s.mem = true →
    (i, v) ∈ [(Instr.iag a, s.ia), (Instr.hwn a, Config.hwDeviceCount)] →
    (writable a = true → ∃ t, exec i s = .next t ∧ (resolveSource a s).loc.read t = v) ∧
    (writable a = false → exec i s =
      .fault (.fatal { kind := .invalidWriteTarget, pc := s.pc - 1, word := some (encode i) }))

/-- HWQ (46_special.md R168, R171, with the spec's decisions D18 and D19) always completes: where the index has a device, B
and C are its id, X its version, Y and Z its manufacturer, low word first; and whatever the words are, only those five
registers, PC, SP by a POP operand, and the model's own count of host draws change. -/
def Obligations.HwqFillsItsFiveRegisters : Prop :=
  ∀ (a : Operand) (s : State), ∃ t, exec (.hwq a) s = .next t ∧
    (deviceAttached (resolveSource a s).val = false ∨
      ((t.getReg .c ++ t.getReg .b : BitVec 32) = (Config.hwDevice (resolveSource a s).val).id ∧
       t.getReg .x = (Config.hwDevice (resolveSource a s).val).version ∧
       (t.getReg .z ++ t.getReg .y : BitVec 32) = (Config.hwDevice (resolveSource a s).val).manufacturer)) ∧
    (∀ r, r ∉ [Reg.b, Reg.c, Reg.x, Reg.y, Reg.z] → t.getReg r = s.getReg r) ∧
    t.sp = (if a = .pushPop then s.sp + 1 else s.sp) ∧ t.ex = s.ex ∧ (∀ k, t.readMem k = s.readMem k) ∧
    t.ia = s.ia ∧ t.queue = s.queue ∧ t.iqe = s.iqe ∧ t.halt = s.halt

/-- HWI (46_special.md R169, R173, with the spec's decision D19) always completes: PC, SP, EX, IA, IQE, Q and halt are as the
operand left them and memory stays canonical; where there is no device, nothing at all changes; where there is one, the
registers and memory are those of its answer applied to the state the operand left, the free value of this draw (log
entry 7). The last clauses say what applying an answer is, for every answer: each register and each word ends with the
last value the answer gives it, or as it was. -/
def Obligations.HwiIsBoundedByTheBus : Prop :=
  ∀ (a : Operand) (s : State), (∃ t, exec (.hwi a) s = .next t ∧
    t.pc = (resolveSource a s).state.pc ∧ t.sp = (resolveSource a s).state.sp ∧ t.ex = s.ex ∧ t.ia = s.ia ∧
    t.iqe = s.iqe ∧ t.queue = s.queue ∧ t.halt = s.halt ∧
    (Memory.wf s.mem = true → Memory.wf t.mem = true) ∧
    (deviceAttached (resolveSource a s).val = true ∨ t = (resolveSource a s).state) ∧
    (deviceAttached (resolveSource a s).val = false ∨
      (t.regs = ((resolveSource a s).state.applyAnswer (Config.hwiAnswer s.hostDraws (resolveSource a s).val
        (resolveSource a s).state.deviceView)).regs ∧
       t.mem = ((resolveSource a s).state.applyAnswer (Config.hwiAnswer s.hostDraws (resolveSource a s).val
        (resolveSource a s).state.deviceView)).mem))) ∧
    ∀ ans : HwiAnswer,
      (∀ r, (s.applyAnswer ans).getReg r = lastWritten ans.regs r (s.getReg r)) ∧
      (Memory.wf s.mem = true → ∀ k, (s.applyAnswer ans).readMem k = lastWritten ans.words k (s.readMem k))

/-! ## Interrupts -/

/-- Taking an interrupt (60_exceptions.md R190, R197; that it happens at the start of a step is the spec's decision D13): the
head message leaves Q, IQE is cleared, PC then A are pushed, PC is IA, A is the message, and nothing else changes. -/
def Obligations.InterruptEntrySavesPcAndA : Prop :=
  ∀ (s : State) (m : Word) (rest : List Word), Memory.wf s.mem = true → s.iqe = true → s.queue = m :: rest → s.ia ≠ 0 →
    s.takeInterrupt.pc = s.ia ∧ s.takeInterrupt.getReg .a = m ∧ s.takeInterrupt.iqe = false ∧
    s.takeInterrupt.queue = rest ∧ s.takeInterrupt.sp = s.sp - 2 ∧
    s.takeInterrupt.readMem (s.sp - 1) = s.pc ∧ s.takeInterrupt.readMem (s.sp - 2) = s.getReg .a ∧
    (∀ k, k ≠ s.sp - 1 → k ≠ s.sp - 2 → s.takeInterrupt.readMem k = s.readMem k) ∧
    (∀ r, r ≠ .a → s.takeInterrupt.getReg r = s.getReg r) ∧
    s.takeInterrupt.ex = s.ex ∧ s.takeInterrupt.ia = s.ia ∧ s.takeInterrupt.halt = s.halt

/-- Where no handler is entered (60_exceptions.md R190, R191; the discard is the spec's decision D14): with IQE = 0 every
message waits, and with IQE = 1 and IA = 0 one message leaves Q and nothing else changes. -/
def Obligations.MessagesWaitOrAreDiscarded : Prop :=
  ∀ s : State, (s.iqe = false → s.takeInterrupt = s) ∧
    (s.iqe = true → s.ia = 0 → s.takeInterrupt = { s with queue := s.queue.tail })

/-- RFI undoes an interrupt entry (60_exceptions.md R198): run in the state the entry left, it gives back PC, SP and every
register, with dispatch enabled. -/
def Obligations.RfiUndoesInterruptEntry : Prop :=
  ∀ (s : State) (m v : Word), Memory.wf s.mem = true →
    ∃ t, exec (.rfi (.inlineLiteral v)) (s.enterHandler m) = .next t ∧
      t.pc = s.pc ∧ t.sp = s.sp ∧ (∀ r, t.getReg r = s.getReg r) ∧ t.iqe = true ∧ t.ex = s.ex ∧ t.queue = s.queue

/-- A device interrupt delivered by the host (60_exceptions.md R207, the spec's decision D29, through the enqueue of R189):
enqueued at once, whether or not dispatch is enabled (INT_WHILE_DISABLED = enqueue, the spec's decision D12, log entry 8);
a full Q (256 messages, the spec's decision D17) halts the core with `(PC, none)` and no other change; a halted core ignores it. -/
def Obligations.DeliveryEnqueuesOrHalts : Prop :=
  ∀ (s : State) (m : Word),
    (s.halt ≠ none → hostAct (.deliverInterrupt m) s = .next s) ∧
    (s.halt = none → s.queue.length < 256 →
      hostAct (.deliverInterrupt m) s = .next { s with queue := s.queue ++ [m] }) ∧
    (s.halt = none → 256 ≤ s.queue.length → hostAct (.deliverInterrupt m) s =
      .next { s with halt := some { kind := .interruptQueueOverflow, pc := s.pc, word := none } })

/-! ## Reset and set_program -/

/-- Reset leaves every component at its value, in any state (10_state.md R33, 70_reset_and_hazards.md R210; IQE = 1 and
halt = none are the spec's decisions D11 and D5). -/
def Obligations.ResetClearsTheCore : Prop :=
  ∀ s : State, ∃ t, hostAct .reset s = .next t ∧ (∀ r, t.getReg r = 0) ∧ t.pc = 0 ∧ t.sp = 0 ∧ t.ex = 0 ∧ t.ia = 0 ∧
    (∀ k, t.readMem k = 0) ∧ t.queue = [] ∧ t.iqe = true ∧ t.halt = none

/-- `set_program` puts the image at the low end of memory and zeros after it, sets PC to 0, and changes nothing else, for
every image that fits (70_reset_and_hazards.md R216, the spec's decision D22); a longer image is refused. -/
def Obligations.SetProgramLoadsTheImage : Prop :=
  ∀ (s : State) (image : List Word),
    (image.length ≤ 65536 → ∃ t, hostAct (.setProgram image) s = .next t ∧
      (∀ k : Word, t.readMem k = image.getD k.toNat 0) ∧ Memory.wf t.mem = true ∧ t.pc = 0 ∧
      t.regs = s.regs ∧ t.sp = s.sp ∧ t.ex = s.ex ∧ t.ia = s.ia ∧ t.queue = s.queue ∧ t.iqe = s.iqe ∧ t.halt = s.halt) ∧
    (65536 < image.length → hostAct (.setProgram image) s = .refused .imageTooLong)

/-! ## Frames -/

/-- The frame of SET, MOD, MDI, AND, BOR and XOR (42_basic_arith.md, 43_basic_bitwise.md, 10_state.md R25): only `b`, PC, and
SP by a POP or PUSH operand change; the one word of memory that can change is at the address of `b`. -/
def Obligations.PlainWritersFrame : Prop :=
  ∀ (b a : Operand) (i : Instr) (s t : State), i ∈ plainWriters b a → exec i s = .next t →
    (∀ r, b ≠ .reg r → t.getReg r = s.getReg r) ∧
    (b ≠ .sp → t.sp = spAfterOperands b a s) ∧
    (b ≠ .ex → t.ex = s.ex) ∧
    (∀ k, storeAddress b a s ≠ some k → t.readMem k = s.readMem k) ∧
    t.ia = s.ia ∧ t.queue = s.queue ∧ t.iqe = s.iqe ∧ t.halt = s.halt ∧ t.hostDraws = s.hostDraws

/-- The frame of the instructions with an EX rule, ADD SUB MUL MLI DIV DVI SHR ASR SHL ADX SBX: only `b`, EX, PC, and SP by a
POP or PUSH operand change; the one word of memory that can change is at the address of `b`. -/
def Obligations.ExWritersFrame : Prop :=
  ∀ (b a : Operand) (i : Instr) (s t : State), i ∈ exWriters b a → exec i s = .next t →
    (∀ r, b ≠ .reg r → t.getReg r = s.getReg r) ∧
    (b ≠ .sp → t.sp = spAfterOperands b a s) ∧
    (∀ k, storeAddress b a s ≠ some k → t.readMem k = s.readMem k) ∧
    t.ia = s.ia ∧ t.queue = s.queue ∧ t.iqe = s.iqe ∧ t.halt = s.halt ∧ t.hostDraws = s.hostDraws

/-- The frame of STI and STD (45_basic_carry_transfer.md R152, R153): as SET's, but that I and J change too. -/
def Obligations.IndexTransfersFrame : Prop :=
  ∀ (b a : Operand) (i : Instr) (s t : State), i ∈ [Instr.sti b a, Instr.std b a] → exec i s = .next t →
    (∀ r, b ≠ .reg r → r ≠ .i → r ≠ .j → t.getReg r = s.getReg r) ∧
    (b ≠ .sp → t.sp = spAfterOperands b a s) ∧
    (b ≠ .ex → t.ex = s.ex) ∧
    (∀ k, storeAddress b a s ≠ some k → t.readMem k = s.readMem k) ∧
    t.ia = s.ia ∧ t.queue = s.queue ∧ t.iqe = s.iqe ∧ t.halt = s.halt ∧ t.hostDraws = s.hostDraws

/-- The frame of the eight conditionals (44_basic_conditional.md R135): whether or not they skip, only PC, and SP by a POP or
PUSH operand, change; nothing is stored. -/
def Obligations.ConditionalsFrame : Prop :=
  ∀ (b a : Operand) (i : Instr) (s t : State), i ∈ conditionals b a → exec i s = .next t →
    (∀ r, t.getReg r = s.getReg r) ∧ t.sp = spAfterOperands b a s ∧ t.ex = s.ex ∧
    (∀ k, t.readMem k = s.readMem k) ∧
    t.ia = s.ia ∧ t.queue = s.queue ∧ t.iqe = s.iqe ∧ t.halt = s.halt ∧ t.hostDraws = s.hostDraws

/-- The frame of INT, IAS and IAQ (46_special.md R162, R164, R166): each changes its own part of the interrupt state, PC, and
SP by a POP operand; no register, no EX and no word of memory. -/
def Obligations.InterruptControlFrame : Prop :=
  ∀ (a : Operand) (i : Instr) (s t : State), i ∈ [Instr.int a, Instr.ias a, Instr.iaq a] → exec i s = .next t →
    (∀ r, t.getReg r = s.getReg r) ∧ t.sp = (if a = .pushPop then s.sp + 1 else s.sp) ∧ t.ex = s.ex ∧
    (∀ k, t.readMem k = s.readMem k) ∧ t.halt = s.halt ∧ t.hostDraws = s.hostDraws ∧
    (i ≠ .int a → t.queue = s.queue) ∧ (i ≠ .ias a → t.ia = s.ia) ∧ (i ≠ .iaq a → t.iqe = s.iqe)

/-- The frame of IAG and HWN (46_special.md R163, R167): only their operand, PC, and SP by a POP operand change. -/
def Obligations.SpecialWritersFrame : Prop :=
  ∀ (a : Operand) (i : Instr) (s t : State), i ∈ [Instr.iag a, Instr.hwn a] → exec i s = .next t →
    (∀ r, a ≠ .reg r → t.getReg r = s.getReg r) ∧
    (a ≠ .sp → t.sp = (if a = .pushPop then s.sp + 1 else s.sp)) ∧
    (a ≠ .ex → t.ex = s.ex) ∧
    (∀ k, sourceStoreAddress a s ≠ some k → t.readMem k = s.readMem k) ∧
    t.ia = s.ia ∧ t.queue = s.queue ∧ t.iqe = s.iqe ∧ t.halt = s.halt ∧ t.hostDraws = s.hostDraws

/-- The frame of JSR and RFI (46_special.md R161, R165): JSR changes PC, SP and the one word at the new SP; RFI changes PC,
SP, IQE and A and stores nothing. -/
def Obligations.CallAndReturnFrame : Prop :=
  ∀ (a : Operand) (s t : State),
    (exec (.jsr a) s = .next t →
      (∀ r, t.getReg r = s.getReg r) ∧ t.ex = s.ex ∧
      (∀ k, k ≠ (resolveSource a s).state.sp - 1 → t.readMem k = s.readMem k) ∧
      t.ia = s.ia ∧ t.queue = s.queue ∧ t.iqe = s.iqe ∧ t.halt = s.halt ∧ t.hostDraws = s.hostDraws) ∧
    (exec (.rfi a) s = .next t →
      (∀ r, r ≠ .a → t.getReg r = s.getReg r) ∧ t.ex = s.ex ∧ (∀ k, t.readMem k = s.readMem k) ∧
      t.ia = s.ia ∧ t.queue = s.queue ∧ t.halt = s.halt ∧ t.hostDraws = s.hostDraws)

/-! ## Whole-machine rules -/

/-- Whatever the instruction: IA changes only by IAS, Q only by INT, IQE only by IAQ and RFI, and no instruction changes
`halt` itself (10_state.md R26, R27, R28, R29, R35). -/
def Obligations.InterruptStateHasFourWriters : Prop :=
  ∀ (i : Instr) (s t : State), exec i s = .next t →
    (t.ia ≠ s.ia → ∃ a, i = .ias a) ∧
    (t.queue ≠ s.queue → ∃ a, i = .int a) ∧
    (t.iqe ≠ s.iqe → ∃ a, i = .iaq a ∨ i = .rfi a) ∧
    t.halt = s.halt

/-- Whatever the instruction, EX changes only by an EX rule or as the operand written (10_state.md R25). -/
def Obligations.ExHasOnlyItsWriters : Prop :=
  ∀ (i : Instr) (s t : State), exec i s = .next t → t.ex ≠ s.ex →
    (∃ b a, i ∈ exWriters b a) ∨ destination i = some .ex

/-- An instruction raises InvalidWriteTarget exactly when it writes through a literal (41_step.md R107, the spec's decision
D7), and then records its own address and word (60_exceptions.md R184). -/
def Obligations.InvalidWriteTargetExactlyAtLiterals : Prop :=
  ∀ (i : Instr) (s : State) (r : FaultRecord),
    (exec i s = .fault (.fatal r) ∧ r.kind = .invalidWriteTarget) ↔
    (writesLiteral i = true ∧ r = { kind := .invalidWriteTarget, pc := s.pc - 1, word := some (encode i) })

/-! ## The invariant -/

/-- The reset state meets the invariant. -/
def Obligations.ResetMeetsTheInvariant : Prop := State.Inv State.reset

/-- Every step keeps the invariant, from every state that meets it: canonical memory, at most 256 messages, and a halt
record its kind explains (10_state.md R22, R28; 60_exceptions.md R180, R184). -/
def Obligations.StepKeepsTheInvariant : Prop :=
  ∀ s t : State, State.Inv s → step s = .next t → State.Inv t

/-- Every host action keeps the invariant, from every state that meets it: reset, set_program of any image that fits, a step,
and a delivery of any message (70_reset_and_hazards.md R218). So, whatever the host does from reset on, the invariant
holds. -/
def Obligations.ReachableStatesMeetTheInvariant : Prop :=
  (∀ (act : HostAction) (s t : State), State.Inv s → hostAct act s = .next t → State.Inv t) ∧
  ∀ s : State, Reachable s → State.Inv s
end

