-- ==== Sys2Proof/Laws/Decode.lean ====
section
/-! SUPPORT. The fields of a packed word, and selectors back from their operands. -/

namespace Sys2Proof

section
variable (aRaw : BitVec 6) (bRaw op : BitVec 5)

theorem packWord_toNat : (packWord aRaw bRaw op).toNat = aRaw.toNat * 1024 + bRaw.toNat * 32 + op.toNat := by
  have := aRaw.isLt; have := bRaw.isLt; have := op.isLt
  simp only [packWord, BitVec.toNat_ofNat]
  omega

@[simp] theorem opField_packWord : opField (packWord aRaw bRaw op) = op := by
  apply BitVec.eq_of_toNat_eq
  have := op.isLt
  simp only [opField, BitVec.extractLsb'_toNat, packWord_toNat, Nat.shiftRight_eq_div_pow]
  omega

@[simp] theorem bField_packWord : bField (packWord aRaw bRaw op) = bRaw := by
  apply BitVec.eq_of_toNat_eq
  have := bRaw.isLt; have := op.isLt
  simp only [bField, BitVec.extractLsb'_toNat, packWord_toNat, Nat.shiftRight_eq_div_pow]
  omega

@[simp] theorem aField_packWord : aField (packWord aRaw bRaw op) = aRaw := by
  apply BitVec.eq_of_toNat_eq
  have := aRaw.isLt; have := bRaw.isLt; have := op.isLt
  simp only [aField, BitVec.extractLsb'_toNat, packWord_toNat, Nat.shiftRight_eq_div_pow]
  omega

end

/-- A word is its three fields packed. -/
theorem packWord_fields (w : Word) : packWord (aField w) (bField w) (opField w) = w := by
  apply BitVec.eq_of_toNat_eq
  have := w.isLt
  simp only [packWord_toNat, aField, bField, opField, BitVec.extractLsb'_toNat, Nat.shiftRight_eq_div_pow]
  omega

/-- A well-formed `b` operand loses nothing in its 5-bit field. -/
theorem selector_setWidth_of_wfAs_b (o : Operand) (h : o.wfAs .b = true) :
    (o.selector.setWidth 5).setWidth 6 = o.selector := by
  cases o with
  | inlineLiteral v => simp [Operand.wfAs] at h
  | reg r => cases r <;> rfl
  | regPointer r => cases r <;> rfl
  | regNextWordPointer r => cases r <;> rfl
  | _ => rfl

end Sys2Proof
end

