-- ==== Sys2Proof/Laws/Flags.lean ====
section
/-! SUPPORT. One lemma per result and per EX rule: the same function in bit-vector or natural-number terms, so that no proof
unfolds the integer formula. -/

namespace Sys2Proof.Machine

theorem w16_toNat (n : Int) : (w16 n).toNat = (n % 65536).toNat := by simp [w16, BitVec.toNat_ofInt]

theorem w16_natCast (n : Nat) : w16 (n : Int) = BitVec.ofNat 16 n := by simp [w16]

theorem addResult_eq (b a : Word) : addResult b a = b + a := by
  apply BitVec.eq_of_toNat_eq
  rw [addResult, w16_toNat, BitVec.toNat_add]; simp only [uint]; omega

theorem subResult_eq (b a : Word) : subResult b a = b - a := by
  apply BitVec.eq_of_toNat_eq
  rw [subResult, w16_toNat, BitVec.toNat_sub]; have := a.isLt; simp only [uint]; omega

theorem mulResult_eq (b a : Word) : mulResult b a = b * a := by
  apply BitVec.eq_of_toNat_eq
  have h : uint b * uint a = ((b.toNat * a.toNat : Nat) : Int) := by push_cast; rfl
  rw [mulResult, h, w16_natCast, BitVec.toNat_mul, BitVec.toNat_ofNat]

theorem adxResult_eq (b a e : Word) : adxResult b a e = b + a + e := by
  apply BitVec.eq_of_toNat_eq
  rw [adxResult, w16_toNat, BitVec.toNat_add, BitVec.toNat_add]; simp only [uint]; omega

theorem sbxResult_eq (b a e : Word) : sbxResult b a e = b - a + e := by
  apply BitVec.eq_of_toNat_eq
  rw [sbxResult, w16_toNat, BitVec.toNat_add, BitVec.toNat_sub]; have := a.isLt; simp only [uint]; omega

theorem mliResult_eq (b a : Word) : mliResult b a = b * a := by
  apply BitVec.eq_of_toInt_eq; simp [mliResult, w16, sint, BitVec.toInt_mul]

theorem mulEx_toNat (b a : Word) : (mulEx b a).toNat * 65536 + (b * a).toNat = b.toNat * a.toNat := by
  have h : uint b * uint a / 65536 = ((b.toNat * a.toNat / 65536 : Nat) : Int) := by push_cast; rfl
  have hlt : b.toNat * a.toNat < 65536 * 65536 := Nat.mul_lt_mul'' b.isLt a.isLt
  rw [mulEx, h, w16_natCast, BitVec.toNat_ofNat, BitVec.toNat_mul]
  omega

theorem mliEx_append (b a : Word) : (mliEx b a ++ (b * a) : BitVec 32) = b.signExtend 32 * a.signExtend 32 := by
  apply BitVec.eq_of_toNat_eq
  have hb := BitVec.toInt_signExtend_of_le (x := b) (v := 32) (by omega)
  have ha := BitVec.toInt_signExtend_of_le (x := a) (v := 32) (by omega)
  have hp : (b.signExtend 32 * a.signExtend 32) = BitVec.ofInt 32 (b.toInt * a.toInt) := by
    apply BitVec.eq_of_toInt_eq; simp [BitVec.toInt_mul, hb, ha]
  have hl : b * a = BitVec.ofInt 16 (b.toInt * a.toInt) := by
    apply BitVec.eq_of_toInt_eq; simp [BitVec.toInt_mul]
  rw [hp, hl, mliEx]
  simp only [sint]
  generalize b.toInt * a.toInt = p
  rw [BitVec.toNat_append, ← Nat.shiftLeft_add_eq_or_of_lt (BitVec.isLt _), Nat.shiftLeft_eq, w16_toNat,
    BitVec.toNat_ofInt, BitVec.toNat_ofInt]
  norm_num
  omega

theorem append_zero_toNat (b : Word) : (b ++ 0#16 : BitVec 32).toNat = b.toNat * 65536 := by
  rw [BitVec.toNat_append]; simp [Nat.shiftLeft_eq]

theorem divResult_toNat (b a : Word) : (divResult b a).toNat = if a = 0 then 0 else b.toNat / a.toNat := by
  unfold divResult; split
  · simp
  · have : (uint b).tdiv (uint a) = ((b.toNat / a.toNat : Nat) : Int) := rfl
    rw [this, w16_natCast, BitVec.toNat_ofNat]
    exact Nat.mod_eq_of_lt (lt_of_le_of_lt (Nat.div_le_self _ _) b.isLt)

theorem divEx_toNat (b a : Word) : (divEx b a).toNat = if a = 0 then 0 else b.toNat * 65536 / a.toNat % 65536 := by
  unfold divEx; split
  · simp
  · have : (uint b * 65536).tdiv (uint a) = ((b.toNat * 65536 / a.toNat : Nat) : Int) := by
      have : uint b * 65536 = ((b.toNat * 65536 : Nat) : Int) := by push_cast; rfl
      rw [this]; rfl
    rw [this, w16_natCast, BitVec.toNat_ofNat]

theorem modResult_toNat (b a : Word) : (modResult b a).toNat = if a = 0 then 0 else b.toNat % a.toNat := by
  unfold modResult; split
  · simp
  · have : (uint b).tmod (uint a) = ((b.toNat % a.toNat : Nat) : Int) := rfl
    rw [this, w16_natCast, BitVec.toNat_ofNat]
    exact Nat.mod_eq_of_lt (lt_of_le_of_lt (Nat.mod_le _ _) b.isLt)

theorem dviResult_eq (b a : Word) : dviResult b a = b.sdiv a := by
  unfold dviResult; split
  · next h => subst h; simp [BitVec.sdiv_zero]
  · apply BitVec.eq_of_toInt_eq
    rw [BitVec.toInt_sdiv]; simp [w16, sint]

theorem dviEx_eq (b a : Word) : dviEx b a = ((b ++ 0#16 : BitVec 32).sdiv (a.signExtend 32)).setWidth 16 := by
  have ha := BitVec.toInt_signExtend_of_le (x := a) (v := 32) (by omega)
  have hb : (b ++ 0#16 : BitVec 32).toInt = b.toInt * 65536 := by
    simp only [BitVec.toInt, append_zero_toNat]; have := b.isLt; split <;> split <;> omega
  unfold dviEx; split
  · next h => subst h; simp [BitVec.sdiv_zero]
  · apply BitVec.eq_of_toNat_eq
    have h2 : ((b ++ 0#16 : BitVec 32).sdiv (a.signExtend 32)) = BitVec.ofInt 32 ((sint b * 65536).tdiv (sint a)) := by
      apply BitVec.eq_of_toInt_eq
      rw [BitVec.toInt_sdiv, ha, hb]; simp
    rw [h2, w16_toNat, BitVec.toNat_setWidth, BitVec.toNat_ofInt]
    generalize (sint b * 65536).tdiv (sint a) = p
    norm_num; omega

theorem mdiResult_eq (b a : Word) : mdiResult b a = if a = 0 then 0 else b.srem a := by
  unfold mdiResult; split
  · rfl
  · apply BitVec.eq_of_toInt_eq
    rw [← BitVec.ofInt_toInt (x := b.srem a), BitVec.toInt_srem]; rfl

theorem shrResult_eq (b a : Word) : shrResult b a = b >>> a.toNat := by
  apply BitVec.eq_of_toNat_eq
  rw [shrResult, w16_natCast, BitVec.toNat_ofNat, BitVec.toNat_ushiftRight]
  exact Nat.mod_eq_of_lt (lt_of_le_of_lt (Nat.shiftRight_le _ _) b.isLt)

theorem shrEx_eq (b a : Word) : shrEx b a = ((b ++ 0#16 : BitVec 32) >>> a.toNat).setWidth 16 := by
  apply BitVec.eq_of_toNat_eq
  rw [shrEx, w16_natCast, BitVec.toNat_ofNat, BitVec.toNat_setWidth, BitVec.toNat_ushiftRight, append_zero_toNat,
    Nat.shiftLeft_eq]

theorem asrResult_eq (b a : Word) : asrResult b a = b.sshiftRight a.toNat := rfl

theorem shlResult_eq (b a : Word) : shlResult b a = b <<< a.toNat := by
  apply BitVec.eq_of_toNat_eq
  rw [shlResult, w16_natCast, BitVec.toNat_ofNat, BitVec.toNat_shiftLeft]

theorem shlEx_eq (b a : Word) : shlEx b a = ((b.setWidth 32 <<< a.toNat) >>> 16).setWidth 16 := by
  apply BitVec.eq_of_toNat_eq
  have hb : b.toNat % 2 ^ 32 = b.toNat := Nat.mod_eq_of_lt (lt_trans b.isLt (by norm_num))
  rw [shlEx, w16_natCast, BitVec.toNat_ofNat, BitVec.toNat_setWidth, BitVec.toNat_ushiftRight, BitVec.toNat_shiftLeft,
    BitVec.toNat_setWidth, hb, Nat.shiftRight_eq_div_pow, Nat.shiftRight_eq_div_pow]
  generalize b.toNat <<< a.toNat = p
  omega

theorem addEx_eq (b a : Word) : addEx b a = if b.toNat + a.toNat > 0xFFFF then 1 else 0 := by
  unfold addEx; congr 1; simp only [eq_iff_iff, uint]; omega

theorem subEx_eq (b a : Word) : subEx b a = if b.toNat < a.toNat then 0xFFFF else 0 := by
  unfold subEx; congr 1; simp only [eq_iff_iff, uint]; omega

theorem adxEx_eq (b a e : Word) : adxEx b a e = if b.toNat + a.toNat + e.toNat > 0xFFFF then 1 else 0 := by
  unfold adxEx; congr 1; simp only [eq_iff_iff, uint]; omega

theorem sbxEx_eq (b a e : Word) : sbxEx b a e = if b.toNat + e.toNat < a.toNat then 0xFFFF else 0 := by
  unfold sbxEx; congr 1; simp only [eq_iff_iff, uint]; omega

end Sys2Proof.Machine
end

