-- ==== Sys2Proof/Laws/State.lean ====
section
/-! SUPPORT. One lemma per field per update of the state, and what reading a register or a memory word sees of each update. -/

namespace Sys2Proof.Machine

@[simp] theorem setReg_regs (s : State) (r : Reg) (v : Word) : (s.setReg r v).regs = s.regs.set v r := rfl
@[simp] theorem setReg_pc (s : State) (r : Reg) (v : Word) : (s.setReg r v).pc = s.pc := rfl
@[simp] theorem setReg_sp (s : State) (r : Reg) (v : Word) : (s.setReg r v).sp = s.sp := rfl
@[simp] theorem setReg_ex (s : State) (r : Reg) (v : Word) : (s.setReg r v).ex = s.ex := rfl
@[simp] theorem setReg_ia (s : State) (r : Reg) (v : Word) : (s.setReg r v).ia = s.ia := rfl
@[simp] theorem setReg_mem (s : State) (r : Reg) (v : Word) : (s.setReg r v).mem = s.mem := rfl
@[simp] theorem setReg_queue (s : State) (r : Reg) (v : Word) : (s.setReg r v).queue = s.queue := rfl
@[simp] theorem setReg_iqe (s : State) (r : Reg) (v : Word) : (s.setReg r v).iqe = s.iqe := rfl
@[simp] theorem setReg_halt (s : State) (r : Reg) (v : Word) : (s.setReg r v).halt = s.halt := rfl
@[simp] theorem setReg_hostDraws (s : State) (r : Reg) (v : Word) : (s.setReg r v).hostDraws = s.hostDraws := rfl

@[simp] theorem setPc_regs (s : State) (v : Word) : (s.setPc v).regs = s.regs := rfl
@[simp] theorem setPc_pc (s : State) (v : Word) : (s.setPc v).pc = v := rfl
@[simp] theorem setPc_sp (s : State) (v : Word) : (s.setPc v).sp = s.sp := rfl
@[simp] theorem setPc_ex (s : State) (v : Word) : (s.setPc v).ex = s.ex := rfl
@[simp] theorem setPc_ia (s : State) (v : Word) : (s.setPc v).ia = s.ia := rfl
@[simp] theorem setPc_mem (s : State) (v : Word) : (s.setPc v).mem = s.mem := rfl
@[simp] theorem setPc_queue (s : State) (v : Word) : (s.setPc v).queue = s.queue := rfl
@[simp] theorem setPc_iqe (s : State) (v : Word) : (s.setPc v).iqe = s.iqe := rfl
@[simp] theorem setPc_halt (s : State) (v : Word) : (s.setPc v).halt = s.halt := rfl
@[simp] theorem setPc_hostDraws (s : State) (v : Word) : (s.setPc v).hostDraws = s.hostDraws := rfl

@[simp] theorem setSp_regs (s : State) (v : Word) : (s.setSp v).regs = s.regs := rfl
@[simp] theorem setSp_pc (s : State) (v : Word) : (s.setSp v).pc = s.pc := rfl
@[simp] theorem setSp_sp (s : State) (v : Word) : (s.setSp v).sp = v := rfl
@[simp] theorem setSp_ex (s : State) (v : Word) : (s.setSp v).ex = s.ex := rfl
@[simp] theorem setSp_ia (s : State) (v : Word) : (s.setSp v).ia = s.ia := rfl
@[simp] theorem setSp_mem (s : State) (v : Word) : (s.setSp v).mem = s.mem := rfl
@[simp] theorem setSp_queue (s : State) (v : Word) : (s.setSp v).queue = s.queue := rfl
@[simp] theorem setSp_iqe (s : State) (v : Word) : (s.setSp v).iqe = s.iqe := rfl
@[simp] theorem setSp_halt (s : State) (v : Word) : (s.setSp v).halt = s.halt := rfl
@[simp] theorem setSp_hostDraws (s : State) (v : Word) : (s.setSp v).hostDraws = s.hostDraws := rfl

@[simp] theorem setEx_regs (s : State) (v : Word) : (s.setEx v).regs = s.regs := rfl
@[simp] theorem setEx_pc (s : State) (v : Word) : (s.setEx v).pc = s.pc := rfl
@[simp] theorem setEx_sp (s : State) (v : Word) : (s.setEx v).sp = s.sp := rfl
@[simp] theorem setEx_ex (s : State) (v : Word) : (s.setEx v).ex = v := rfl
@[simp] theorem setEx_ia (s : State) (v : Word) : (s.setEx v).ia = s.ia := rfl
@[simp] theorem setEx_mem (s : State) (v : Word) : (s.setEx v).mem = s.mem := rfl
@[simp] theorem setEx_queue (s : State) (v : Word) : (s.setEx v).queue = s.queue := rfl
@[simp] theorem setEx_iqe (s : State) (v : Word) : (s.setEx v).iqe = s.iqe := rfl
@[simp] theorem setEx_halt (s : State) (v : Word) : (s.setEx v).halt = s.halt := rfl
@[simp] theorem setEx_hostDraws (s : State) (v : Word) : (s.setEx v).hostDraws = s.hostDraws := rfl

@[simp] theorem setIa_regs (s : State) (v : Word) : (s.setIa v).regs = s.regs := rfl
@[simp] theorem setIa_pc (s : State) (v : Word) : (s.setIa v).pc = s.pc := rfl
@[simp] theorem setIa_sp (s : State) (v : Word) : (s.setIa v).sp = s.sp := rfl
@[simp] theorem setIa_ex (s : State) (v : Word) : (s.setIa v).ex = s.ex := rfl
@[simp] theorem setIa_ia (s : State) (v : Word) : (s.setIa v).ia = v := rfl
@[simp] theorem setIa_mem (s : State) (v : Word) : (s.setIa v).mem = s.mem := rfl
@[simp] theorem setIa_queue (s : State) (v : Word) : (s.setIa v).queue = s.queue := rfl
@[simp] theorem setIa_iqe (s : State) (v : Word) : (s.setIa v).iqe = s.iqe := rfl
@[simp] theorem setIa_halt (s : State) (v : Word) : (s.setIa v).halt = s.halt := rfl
@[simp] theorem setIa_hostDraws (s : State) (v : Word) : (s.setIa v).hostDraws = s.hostDraws := rfl

@[simp] theorem setQueue_regs (s : State) (q : List Word) : (s.setQueue q).regs = s.regs := rfl
@[simp] theorem setQueue_pc (s : State) (q : List Word) : (s.setQueue q).pc = s.pc := rfl
@[simp] theorem setQueue_sp (s : State) (q : List Word) : (s.setQueue q).sp = s.sp := rfl
@[simp] theorem setQueue_ex (s : State) (q : List Word) : (s.setQueue q).ex = s.ex := rfl
@[simp] theorem setQueue_ia (s : State) (q : List Word) : (s.setQueue q).ia = s.ia := rfl
@[simp] theorem setQueue_mem (s : State) (q : List Word) : (s.setQueue q).mem = s.mem := rfl
@[simp] theorem setQueue_queue (s : State) (q : List Word) : (s.setQueue q).queue = q := rfl
@[simp] theorem setQueue_iqe (s : State) (q : List Word) : (s.setQueue q).iqe = s.iqe := rfl
@[simp] theorem setQueue_halt (s : State) (q : List Word) : (s.setQueue q).halt = s.halt := rfl
@[simp] theorem setQueue_hostDraws (s : State) (q : List Word) : (s.setQueue q).hostDraws = s.hostDraws := rfl

@[simp] theorem setIqe_regs (s : State) (v : Bool) : (s.setIqe v).regs = s.regs := rfl
@[simp] theorem setIqe_pc (s : State) (v : Bool) : (s.setIqe v).pc = s.pc := rfl
@[simp] theorem setIqe_sp (s : State) (v : Bool) : (s.setIqe v).sp = s.sp := rfl
@[simp] theorem setIqe_ex (s : State) (v : Bool) : (s.setIqe v).ex = s.ex := rfl
@[simp] theorem setIqe_ia (s : State) (v : Bool) : (s.setIqe v).ia = s.ia := rfl
@[simp] theorem setIqe_mem (s : State) (v : Bool) : (s.setIqe v).mem = s.mem := rfl
@[simp] theorem setIqe_queue (s : State) (v : Bool) : (s.setIqe v).queue = s.queue := rfl
@[simp] theorem setIqe_iqe (s : State) (v : Bool) : (s.setIqe v).iqe = v := rfl
@[simp] theorem setIqe_halt (s : State) (v : Bool) : (s.setIqe v).halt = s.halt := rfl
@[simp] theorem setIqe_hostDraws (s : State) (v : Bool) : (s.setIqe v).hostDraws = s.hostDraws := rfl

@[simp] theorem haltWith_regs (s : State) (r : FaultRecord) : (s.haltWith r).regs = s.regs := rfl
@[simp] theorem haltWith_pc (s : State) (r : FaultRecord) : (s.haltWith r).pc = s.pc := rfl
@[simp] theorem haltWith_sp (s : State) (r : FaultRecord) : (s.haltWith r).sp = s.sp := rfl
@[simp] theorem haltWith_ex (s : State) (r : FaultRecord) : (s.haltWith r).ex = s.ex := rfl
@[simp] theorem haltWith_ia (s : State) (r : FaultRecord) : (s.haltWith r).ia = s.ia := rfl
@[simp] theorem haltWith_mem (s : State) (r : FaultRecord) : (s.haltWith r).mem = s.mem := rfl
@[simp] theorem haltWith_queue (s : State) (r : FaultRecord) : (s.haltWith r).queue = s.queue := rfl
@[simp] theorem haltWith_iqe (s : State) (r : FaultRecord) : (s.haltWith r).iqe = s.iqe := rfl
@[simp] theorem haltWith_halt (s : State) (r : FaultRecord) : (s.haltWith r).halt = some r := rfl
@[simp] theorem haltWith_hostDraws (s : State) (r : FaultRecord) : (s.haltWith r).hostDraws = s.hostDraws := rfl

@[simp] theorem countDraw_regs (s : State) : s.countDraw.regs = s.regs := rfl
@[simp] theorem countDraw_pc (s : State) : s.countDraw.pc = s.pc := rfl
@[simp] theorem countDraw_sp (s : State) : s.countDraw.sp = s.sp := rfl
@[simp] theorem countDraw_ex (s : State) : s.countDraw.ex = s.ex := rfl
@[simp] theorem countDraw_ia (s : State) : s.countDraw.ia = s.ia := rfl
@[simp] theorem countDraw_mem (s : State) : s.countDraw.mem = s.mem := rfl
@[simp] theorem countDraw_queue (s : State) : s.countDraw.queue = s.queue := rfl
@[simp] theorem countDraw_iqe (s : State) : s.countDraw.iqe = s.iqe := rfl
@[simp] theorem countDraw_halt (s : State) : s.countDraw.halt = s.halt := rfl
@[simp] theorem countDraw_hostDraws (s : State) : s.countDraw.hostDraws = s.hostDraws + 1 := rfl

@[simp] theorem writeMem_regs (s : State) (n v : Word) : (s.writeMem n v).regs = s.regs := rfl
@[simp] theorem writeMem_pc (s : State) (n v : Word) : (s.writeMem n v).pc = s.pc := rfl
@[simp] theorem writeMem_sp (s : State) (n v : Word) : (s.writeMem n v).sp = s.sp := rfl
@[simp] theorem writeMem_ex (s : State) (n v : Word) : (s.writeMem n v).ex = s.ex := rfl
@[simp] theorem writeMem_ia (s : State) (n v : Word) : (s.writeMem n v).ia = s.ia := rfl
@[simp] theorem writeMem_mem (s : State) (n v : Word) : (s.writeMem n v).mem = Memory.write s.mem n.toNat v := rfl
@[simp] theorem writeMem_queue (s : State) (n v : Word) : (s.writeMem n v).queue = s.queue := rfl
@[simp] theorem writeMem_iqe (s : State) (n v : Word) : (s.writeMem n v).iqe = s.iqe := rfl
@[simp] theorem writeMem_halt (s : State) (n v : Word) : (s.writeMem n v).halt = s.halt := rfl
@[simp] theorem writeMem_hostDraws (s : State) (n v : Word) : (s.writeMem n v).hostDraws = s.hostDraws := rfl

/-! ## Registers -/

@[simp] theorem Regs.get_set_same (g : Regs) (v : Word) (r : Reg) : (g.set v r).get r = v := by cases r <;> rfl

theorem Regs.get_set_other (g : Regs) (v : Word) {r q : Reg} (h : q ≠ r) : (g.set v r).get q = g.get q := by
  cases r <;> cases q <;> first | rfl | exact absurd rfl h

@[simp] theorem setReg_getReg_same (s : State) (r : Reg) (v : Word) : (s.setReg r v).getReg r = v :=
  Regs.get_set_same s.regs v r

theorem setReg_getReg_other (s : State) (v : Word) {r q : Reg} (h : q ≠ r) : (s.setReg r v).getReg q = s.getReg q :=
  Regs.get_set_other s.regs v h

theorem setReg_getReg (s : State) (v : Word) (r q : Reg) :
    (s.setReg r v).getReg q = if q = r then v else s.getReg q := by
  split
  · next h => rw [h, setReg_getReg_same]
  · next h => exact setReg_getReg_other s v h

@[simp] theorem setPc_getReg (s : State) (v : Word) (p : Reg) : (s.setPc v).getReg p = s.getReg p := rfl
@[simp] theorem setSp_getReg (s : State) (v : Word) (p : Reg) : (s.setSp v).getReg p = s.getReg p := rfl
@[simp] theorem setEx_getReg (s : State) (v : Word) (p : Reg) : (s.setEx v).getReg p = s.getReg p := rfl
@[simp] theorem setIa_getReg (s : State) (v : Word) (p : Reg) : (s.setIa v).getReg p = s.getReg p := rfl
@[simp] theorem setQueue_getReg (s : State) (q : List Word) (p : Reg) : (s.setQueue q).getReg p = s.getReg p := rfl
@[simp] theorem setIqe_getReg (s : State) (v : Bool) (p : Reg) : (s.setIqe v).getReg p = s.getReg p := rfl
@[simp] theorem haltWith_getReg (s : State) (r : FaultRecord) (p : Reg) : (s.haltWith r).getReg p = s.getReg p := rfl
@[simp] theorem countDraw_getReg (s : State) (p : Reg) : s.countDraw.getReg p = s.getReg p := rfl
@[simp] theorem writeMem_getReg (s : State) (n v : Word) (p : Reg) : (s.writeMem n v).getReg p = s.getReg p := rfl

/-! ## Memory words -/

@[simp] theorem setReg_readMem (s : State) (r : Reg) (v : Word) (k : Word) : (s.setReg r v).readMem k = s.readMem k := rfl
@[simp] theorem setPc_readMem (s : State) (v : Word) (k : Word) : (s.setPc v).readMem k = s.readMem k := rfl
@[simp] theorem setSp_readMem (s : State) (v : Word) (k : Word) : (s.setSp v).readMem k = s.readMem k := rfl
@[simp] theorem setEx_readMem (s : State) (v : Word) (k : Word) : (s.setEx v).readMem k = s.readMem k := rfl
@[simp] theorem setIa_readMem (s : State) (v : Word) (k : Word) : (s.setIa v).readMem k = s.readMem k := rfl
@[simp] theorem setQueue_readMem (s : State) (q : List Word) (k : Word) : (s.setQueue q).readMem k = s.readMem k := rfl
@[simp] theorem setIqe_readMem (s : State) (v : Bool) (k : Word) : (s.setIqe v).readMem k = s.readMem k := rfl
@[simp] theorem haltWith_readMem (s : State) (r : FaultRecord) (k : Word) : (s.haltWith r).readMem k = s.readMem k := rfl
@[simp] theorem countDraw_readMem (s : State) (k : Word) : s.countDraw.readMem k = s.readMem k := rfl

/-- Two states with the same fields are the same state. -/
theorem State.ext_fields {s t : State} (h1 : s.regs = t.regs) (h2 : s.pc = t.pc) (h3 : s.sp = t.sp) (h4 : s.ex = t.ex)
    (h5 : s.ia = t.ia) (h6 : s.mem = t.mem) (h7 : s.queue = t.queue) (h8 : s.iqe = t.iqe) (h9 : s.halt = t.halt)
    (h10 : s.hostDraws = t.hostDraws) : s = t := by
  cases s; cases t; simp_all

end Sys2Proof.Machine
end

