-- ==== Sys2Proof/Laws/Memory.lean ====
section
/-! SUPPORT. The laws of memory: read after write, that every operation keeps the canonical form, and that equal reads
are equal memories. -/

namespace Sys2Proof.Machine

@[simp] theorem Memory.read_nil (n : Nat) : Memory.read [] n = Memory.unlisted := rfl

theorem Memory.wfFrom_cons_iff {lo k : Nat} {v : Word} {m : Memory} :
    Memory.wfFrom lo ((k, v) :: m) = true ↔
      lo ≤ k ∧ k < 65536 ∧ v ≠ Memory.unlisted ∧ Memory.wfFrom (k + 1) m = true := by
  simp [Memory.wfFrom, and_assoc]

/-- A memory canonical from an address on is canonical from any lower one on. -/
theorem Memory.wfFrom_mono {lo lo' : Nat} {m : Memory} (h : Memory.wfFrom lo m = true) (hl : lo' ≤ lo) :
    Memory.wfFrom lo' m = true := by
  cases m with
  | nil => rfl
  | cons e m =>
    obtain ⟨k, v⟩ := e
    rw [Memory.wfFrom_cons_iff] at h ⊢
    exact ⟨hl.trans h.1, h.2⟩

/-- A canonical memory lists nothing below where it begins. -/
theorem Memory.read_below {lo n : Nat} {m : Memory} (h : Memory.wfFrom lo m = true) (hn : n < lo) :
    Memory.read m n = Memory.unlisted := by
  induction m generalizing lo with
  | nil => rfl
  | cons e m ih =>
    obtain ⟨k, v⟩ := e
    rw [Memory.wfFrom_cons_iff] at h
    have hk : n ≠ k := by omega
    simp only [Memory.read, if_neg hk]
    exact ih h.2.2.2 (by omega)

/-- A canonical memory lists nothing from the end of memory on. -/
theorem Memory.read_above {lo n : Nat} {m : Memory} (h : Memory.wfFrom lo m = true) (hn : 65536 ≤ n) :
    Memory.read m n = Memory.unlisted := by
  induction m generalizing lo with
  | nil => rfl
  | cons e m ih =>
    obtain ⟨k, v⟩ := e
    rw [Memory.wfFrom_cons_iff] at h
    have hk : n ≠ k := by omega
    simp only [Memory.read, if_neg hk]
    exact ih h.2.2.2

theorem Memory.read_cons_same {lo n : Nat} {v : Word} {m : Memory} (h : Memory.wfFrom lo m = true) (hn : n < lo) :
    Memory.read (Memory.cons n v m) n = v := by
  unfold Memory.cons
  split
  · next hv => rw [Memory.read_below h hn, hv]
  · simp [Memory.read]

theorem Memory.read_cons_other {n k : Nat} (v : Word) (m : Memory) (h : k ≠ n) :
    Memory.read (Memory.cons n v m) k = Memory.read m k := by
  unfold Memory.cons
  split
  · rfl
  · simp [Memory.read, h]

theorem Memory.wfFrom_cons {lo n : Nat} {v : Word} {m : Memory} (h : Memory.wfFrom (n + 1) m = true) (hl : lo ≤ n)
    (hn : n < 65536) : Memory.wfFrom lo (Memory.cons n v m) = true := by
  unfold Memory.cons
  split
  · exact Memory.wfFrom_mono h (by omega)
  · next hv => exact Memory.wfFrom_cons_iff.2 ⟨hl, hn, hv, h⟩

/-- A write keeps the canonical form. -/
theorem Memory.wfFrom_write {lo n : Nat} {v : Word} {m : Memory} (h : Memory.wfFrom lo m = true) (hl : lo ≤ n)
    (hn : n < 65536) : Memory.wfFrom lo (Memory.write m n v) = true := by
  induction m generalizing lo with
  | nil => exact Memory.wfFrom_cons rfl hl hn
  | cons e m ih =>
    obtain ⟨k, u⟩ := e
    have h' := Memory.wfFrom_cons_iff.1 h
    simp only [Memory.write]
    split
    · next hk =>
      exact Memory.wfFrom_cons (Memory.wfFrom_cons_iff.2 ⟨hk, h'.2⟩) hl hn
    · split
      · next hk => subst hk; exact Memory.wfFrom_cons h'.2.2.2 hl hn
      · exact Memory.wfFrom_cons_iff.2 ⟨h'.1, h'.2.1, h'.2.2.1, ih h'.2.2.2 (by omega)⟩

/-- A read after a write to the same address gives the word written. -/
theorem Memory.read_write_same {lo n : Nat} (v : Word) {m : Memory} (h : Memory.wfFrom lo m = true) :
    Memory.read (Memory.write m n v) n = v := by
  induction m generalizing lo with
  | nil => exact Memory.read_cons_same (lo := n + 1) rfl (by omega)
  | cons e m ih =>
    obtain ⟨k, u⟩ := e
    have h' := Memory.wfFrom_cons_iff.1 h
    simp only [Memory.write]
    split
    · next hk => exact Memory.read_cons_same (Memory.wfFrom_cons_iff.2 ⟨le_refl k, h'.2⟩) hk
    · split
      · next hk => subst hk; exact Memory.read_cons_same h'.2.2.2 (by omega)
      · next hk => simp only [Memory.read, if_neg hk]; exact ih h'.2.2.2

/-- A write leaves every other address alone. -/
theorem Memory.read_write_other {n k : Nat} (v : Word) (m : Memory) (h : k ≠ n) :
    Memory.read (Memory.write m n v) k = Memory.read m k := by
  induction m with
  | nil => exact Memory.read_cons_other v [] h
  | cons e m ih =>
    obtain ⟨j, u⟩ := e
    simp only [Memory.write]
    split
    · exact Memory.read_cons_other v _ h
    · split
      · next hj =>
        subst hj
        rw [Memory.read_cons_other v _ h]
        simp [Memory.read, h]
      · simp only [Memory.read, ih]

/-- Two canonical memories that read alike are the same list. -/
theorem Memory.ext {lo : Nat} {m m' : Memory} (h : Memory.wfFrom lo m = true) (h' : Memory.wfFrom lo m' = true)
    (hr : ∀ n, Memory.read m n = Memory.read m' n) : m = m' := by
  induction m generalizing lo m' with
  | nil =>
    cases m' with
    | nil => rfl
    | cons e m' =>
      obtain ⟨k, v⟩ := e
      have := hr k
      simp [Memory.read] at this
      exact absurd this.symm (Memory.wfFrom_cons_iff.1 h').2.2.1
  | cons e m ih =>
    obtain ⟨k, v⟩ := e
    have w := Memory.wfFrom_cons_iff.1 h
    cases m' with
    | nil =>
      have := hr k
      simp [Memory.read] at this
      exact absurd this w.2.2.1
    | cons e' m' =>
      obtain ⟨k', v'⟩ := e'
      have w' := Memory.wfFrom_cons_iff.1 h'
      have hk : k = k' := by
        rcases Nat.lt_trichotomy k k' with hlt | heq | hlt
        · have := hr k
          rw [Memory.read_below (Memory.wfFrom_cons_iff.2 ⟨le_refl k', w'.2⟩) hlt] at this
          simp [Memory.read] at this
          exact absurd this w.2.2.1
        · exact heq
        · have := hr k'
          rw [Memory.read_below (Memory.wfFrom_cons_iff.2 ⟨le_refl k, w.2⟩) hlt] at this
          simp [Memory.read] at this
          exact absurd this.symm w'.2.2.1
      subst hk
      have hv : v = v' := by simpa [Memory.read] using hr k
      subst hv
      have : m = m' := ih w.2.2.2 w'.2.2.2 fun n => by
        by_cases hn : n = k
        · subst hn
          rw [Memory.read_below w.2.2.2 (by omega), Memory.read_below w'.2.2.2 (by omega)]
        · simpa [Memory.read, hn] using hr n
      rw [this]

/-! ## Memory of a state -/

theorem writeMem_wf {s : State} (n v : Word) (h : Memory.wf s.mem = true) : Memory.wf (s.writeMem n v).mem = true :=
  Memory.wfFrom_write h (Nat.zero_le _) n.isLt

theorem writeMem_readMem_same {s : State} (n v : Word) (h : Memory.wf s.mem = true) : (s.writeMem n v).readMem n = v :=
  Memory.read_write_same v h

theorem writeMem_readMem_other (s : State) {n k : Word} (v : Word) (h : k ≠ n) :
    (s.writeMem n v).readMem k = s.readMem k :=
  Memory.read_write_other v s.mem fun e => h (BitVec.eq_of_toNat_eq e)

theorem writeAll_wf {s : State} (ws : List (Word × Word)) (h : Memory.wf s.mem = true) :
    Memory.wf (s.writeAll ws).mem = true := by
  induction ws generalizing s with
  | nil => exact h
  | cons e ws ih => exact ih (writeMem_wf e.1 e.2 h)

theorem writeWords_wf {s : State} (n : Word) (ws : List Word) (h : Memory.wf s.mem = true) :
    Memory.wf (s.writeWords n ws).mem = true := by
  induction ws generalizing s n with
  | nil => exact h
  | cons v ws ih => exact ih (n + 1) (writeMem_wf n v h)

theorem Memory.ofImage_wf {n : Nat} {image : List Word} (h : n + image.length ≤ 65536) :
    Memory.wfFrom n (Memory.ofImage n image) = true := by
  induction image generalizing n with
  | nil => rfl
  | cons v vs ih =>
    simp only [List.length_cons] at h
    exact Memory.wfFrom_cons (ih (by omega)) (le_refl n) (by omega)

/-- What a loaded image reads as: its word at each address, zero past its end. -/
theorem Memory.ofImage_read {image : List Word} {n k : Nat} (hn : n ≤ k) (h : n + image.length ≤ 65536) :
    Memory.read (Memory.ofImage n image) k = image.getD (k - n) 0 := by
  induction image generalizing n with
  | nil => simp [Memory.ofImage, Memory.unlisted]
  | cons v vs ih =>
    simp only [List.length_cons] at h
    by_cases hk : k = n
    · subst hk
      rw [Memory.ofImage, Memory.read_cons_same (Memory.ofImage_wf (n := k + 1) (by omega)) (by omega)]
      simp
    · rw [Memory.ofImage, Memory.read_cons_other _ _ hk, ih (n := n + 1) (by omega) (by omega),
        show k - n = (k - (n + 1)) + 1 by omega]
      simp

/-- Reset's memory is canonical. -/
theorem reset_mem_wf : Memory.wf State.reset.mem = true := rfl

end Sys2Proof.Machine
end

