-- ==== Sys2Proof/Laws/Ops.lean ====
section
/-! SUPPORT. What the shared operations do: the stack, the queue, taking an interrupt and returning from one, the
hardware bus. -/

namespace Sys2Proof.Machine

/-! ## Stack -/

section
variable (s : State) (v : Word)

@[simp] theorem push_regs : (s.push v).regs = s.regs := rfl
@[simp] theorem push_pc : (s.push v).pc = s.pc := rfl
@[simp] theorem push_sp : (s.push v).sp = s.sp - 1 := rfl
@[simp] theorem push_ex : (s.push v).ex = s.ex := rfl
@[simp] theorem push_ia : (s.push v).ia = s.ia := rfl
@[simp] theorem push_queue : (s.push v).queue = s.queue := rfl
@[simp] theorem push_iqe : (s.push v).iqe = s.iqe := rfl
@[simp] theorem push_halt : (s.push v).halt = s.halt := rfl
@[simp] theorem push_hostDraws : (s.push v).hostDraws = s.hostDraws := rfl
@[simp] theorem push_getReg (r : Reg) : (s.push v).getReg r = s.getReg r := rfl

theorem push_readMem_same (h : Memory.wf s.mem = true) : (s.push v).readMem (s.sp - 1) = v :=
  writeMem_readMem_same (s := s.setSp (s.sp - 1)) (s.sp - 1) v h

theorem push_readMem_other {k : Word} (h : k ≠ s.sp - 1) : (s.push v).readMem k = s.readMem k :=
  writeMem_readMem_other (s.setSp (s.sp - 1)) v h

theorem push_wf (h : Memory.wf s.mem = true) : Memory.wf (s.push v).mem = true :=
  writeMem_wf (s := s.setSp (s.sp - 1)) (s.sp - 1) v h

end

/-- A pop undoes a push: the word comes back and SP is where it was. -/
theorem pop_push (s : State) (v : Word) (h : Memory.wf s.mem = true) :
    (s.push v).pop.1 = v ∧ (s.push v).pop.2.sp = s.sp :=
  ⟨push_readMem_same s v h, by simp [State.pop]⟩

/-! ## Queue -/

/-- Everything an enqueue can do. -/
theorem enqueue_cases (s : State) (m : Word) :
    (queueCapacity ≤ s.queue.length ∧ s.enqueue m = none) ∨
    (s.queue.length < queueCapacity ∧ s.enqueue m = some (s.setQueue (s.queue ++ [m]))) := by
  by_cases h : queueCapacity ≤ s.queue.length
  · exact .inl ⟨h, by simp [State.enqueue, State.enqueueUnder, intWhileDisabled, h]⟩
  · exact .inr ⟨by omega, by simp [State.enqueue, State.enqueueUnder, intWhileDisabled, h]⟩

/-! ## Interrupts -/

/-- Everything the dispatch at the start of a step can do. -/
theorem takeInterrupt_cases (s : State) :
    ((s.iqe = false ∨ s.queue = []) ∧ s.takeInterrupt = s) ∨
    ∃ m rest, s.iqe = true ∧ s.queue = m :: rest ∧
      ((s.ia = 0 ∧ s.takeInterrupt = s.setQueue rest) ∨
       (s.ia ≠ 0 ∧ s.takeInterrupt = (s.setQueue rest).enterHandler m)) := by
  unfold State.takeInterrupt
  cases hi : s.iqe with
  | false => exact .inl ⟨.inl rfl, rfl⟩
  | true =>
    cases hq : s.queue with
    | nil => exact .inl ⟨.inr rfl, rfl⟩
    | cons m rest =>
      refine .inr ⟨m, rest, rfl, rfl, ?_⟩
      by_cases h : s.ia = 0
      · exact .inl ⟨h, if_pos h⟩
      · exact .inr ⟨h, if_neg h⟩

section
variable (s : State) (m : Word)

@[simp] theorem enterHandler_pc : (s.enterHandler m).pc = s.ia := rfl
@[simp] theorem enterHandler_sp : (s.enterHandler m).sp = s.sp - 1 - 1 := rfl
@[simp] theorem enterHandler_ex : (s.enterHandler m).ex = s.ex := rfl
@[simp] theorem enterHandler_ia : (s.enterHandler m).ia = s.ia := rfl
@[simp] theorem enterHandler_queue : (s.enterHandler m).queue = s.queue := rfl
@[simp] theorem enterHandler_iqe : (s.enterHandler m).iqe = false := rfl
@[simp] theorem enterHandler_halt : (s.enterHandler m).halt = s.halt := rfl
@[simp] theorem enterHandler_hostDraws : (s.enterHandler m).hostDraws = s.hostDraws := rfl

theorem enterHandler_getReg (r : Reg) : (s.enterHandler m).getReg r = if r = .a then m else s.getReg r := by
  cases r <;> rfl

theorem enterHandler_wf (h : Memory.wf s.mem = true) : Memory.wf (s.enterHandler m).mem = true :=
  push_wf ((s.setIqe false).push s.pc) (s.getReg .a) (push_wf (s.setIqe false) s.pc h)

/-- The interrupted A is on top of the stack. -/
theorem enterHandler_readMem_a (h : Memory.wf s.mem = true) : (s.enterHandler m).readMem (s.sp - 1 - 1) = s.getReg .a :=
  push_readMem_same ((s.setIqe false).push s.pc) (s.getReg .a) (push_wf (s.setIqe false) s.pc h)

/-- The interrupted PC is under it. -/
theorem enterHandler_readMem_pc (h : Memory.wf s.mem = true) : (s.enterHandler m).readMem (s.sp - 1) = s.pc :=
  (push_readMem_other ((s.setIqe false).push s.pc) (s.getReg .a) (k := s.sp - 1)
    (by show s.sp - 1 ≠ s.sp - 1 - 1; bv_omega)).trans (push_readMem_same (s.setIqe false) s.pc h)

/-- Every other word of memory is as it was. -/
theorem enterHandler_readMem_other {k : Word} (h1 : k ≠ s.sp - 1) (h2 : k ≠ s.sp - 1 - 1) :
    (s.enterHandler m).readMem k = s.readMem k :=
  (push_readMem_other ((s.setIqe false).push s.pc) (s.getReg .a) h2).trans (push_readMem_other (s.setIqe false) s.pc h1)

@[simp] theorem returnFromInterrupt_pc : s.returnFromInterrupt.pc = s.readMem (s.sp + 1) := rfl
@[simp] theorem returnFromInterrupt_sp : s.returnFromInterrupt.sp = s.sp + 1 + 1 := rfl
@[simp] theorem returnFromInterrupt_ex : s.returnFromInterrupt.ex = s.ex := rfl
@[simp] theorem returnFromInterrupt_ia : s.returnFromInterrupt.ia = s.ia := rfl
@[simp] theorem returnFromInterrupt_mem : s.returnFromInterrupt.mem = s.mem := rfl
@[simp] theorem returnFromInterrupt_queue : s.returnFromInterrupt.queue = s.queue := rfl
@[simp] theorem returnFromInterrupt_iqe : s.returnFromInterrupt.iqe = true := rfl
@[simp] theorem returnFromInterrupt_halt : s.returnFromInterrupt.halt = s.halt := rfl
@[simp] theorem returnFromInterrupt_hostDraws : s.returnFromInterrupt.hostDraws = s.hostDraws := rfl
@[simp] theorem returnFromInterrupt_readMem (k : Word) : s.returnFromInterrupt.readMem k = s.readMem k := rfl

theorem returnFromInterrupt_getReg (r : Reg) :
    s.returnFromInterrupt.getReg r = if r = .a then s.readMem s.sp else s.getReg r := by
  cases r <;> rfl

end

/-! ## Hardware bus -/

section
variable (s : State) (q : HwqWords)

@[simp] theorem setQueryRegs_pc : (s.setQueryRegs q).pc = s.pc := rfl
@[simp] theorem setQueryRegs_sp : (s.setQueryRegs q).sp = s.sp := rfl
@[simp] theorem setQueryRegs_ex : (s.setQueryRegs q).ex = s.ex := rfl
@[simp] theorem setQueryRegs_ia : (s.setQueryRegs q).ia = s.ia := rfl
@[simp] theorem setQueryRegs_mem : (s.setQueryRegs q).mem = s.mem := rfl
@[simp] theorem setQueryRegs_queue : (s.setQueryRegs q).queue = s.queue := rfl
@[simp] theorem setQueryRegs_iqe : (s.setQueryRegs q).iqe = s.iqe := rfl
@[simp] theorem setQueryRegs_halt : (s.setQueryRegs q).halt = s.halt := rfl
@[simp] theorem setQueryRegs_hostDraws : (s.setQueryRegs q).hostDraws = s.hostDraws := rfl

theorem setQueryRegs_getReg (r : Reg) :
    (s.setQueryRegs q).getReg r = match r with
      | .b => q.b
      | .c => q.c
      | .x => q.x
      | .y => q.y
      | .z => q.z
      | .a => s.getReg .a
      | .i => s.getReg .i
      | .j => s.getReg .j := by
  cases r <;> rfl

end

/-- A query changes B, C, X, Y, Z and the model's own counter, whatever the words are. -/
theorem hardwareQuery_eq (s : State) (index : Word) :
    ∃ q, s.hardwareQuery index = s.setQueryRegs q ∨ s.hardwareQuery index = (s.setQueryRegs q).countDraw := by
  unfold State.hardwareQuery
  split
  · exact ⟨_, .inl rfl⟩
  · exact ⟨_, .inr rfl⟩

/-- The register part of a device's answer changes only registers. -/
theorem setRegs_eq (s : State) (l : List (Reg × Word)) : ∃ g, s.setRegs l = { s with regs := g } := by
  induction l generalizing s with
  | nil => exact ⟨s.regs, rfl⟩
  | cons e l ih =>
    obtain ⟨g, hg⟩ := ih (s.setReg e.1 e.2)
    exact ⟨g, hg⟩

/-- The memory part of a device's answer changes only memory. -/
theorem writeAll_eq (s : State) (l : List (Word × Word)) : ∃ m, s.writeAll l = { s with mem := m } := by
  induction l generalizing s with
  | nil => exact ⟨s.mem, rfl⟩
  | cons e l ih =>
    obtain ⟨m, hm⟩ := ih (s.writeMem e.1 e.2)
    exact ⟨m, hm⟩

/-- A device's answer changes registers and memory, keeps memory canonical, and changes nothing else. -/
theorem applyAnswer_eq (s : State) (ans : HwiAnswer) :
    ∃ g m, s.applyAnswer ans = { s with regs := g, mem := m } ∧ (Memory.wf s.mem = true → Memory.wf m = true) := by
  obtain ⟨g, hg⟩ := setRegs_eq s ans.regs
  obtain ⟨m, hm⟩ := writeAll_eq { s with regs := g } ans.words
  refine ⟨g, m, by rw [State.applyAnswer, hg, hm], fun h => ?_⟩
  have := writeAll_wf (s := { s with regs := g }) ans.words h
  rwa [hm] at this

/-- HWI to an attached device is that device's answer, and one more draw. -/
theorem hardwareInterrupt_attached {index : Word} (s : State) (h : deviceAttached index = true) :
    s.hardwareInterrupt index = (s.applyAnswer (Config.hwiAnswer s.hostDraws index s.deviceView)).countDraw := if_pos h

/-- HWI to an index with no device does nothing. -/
theorem hardwareInterrupt_absent {index : Word} (s : State) (h : deviceAttached index = false) :
    s.hardwareInterrupt index = s := if_neg (by rw [h]; decide)

/-- Everything an HWI can do. -/
theorem hardwareInterrupt_cases (s : State) (index : Word) :
    (deviceAttached index = false ∧ s.hardwareInterrupt index = s) ∨
    (deviceAttached index = true ∧ ∃ g m, s.hardwareInterrupt index =
      { s with regs := g, mem := m, hostDraws := s.hostDraws + 1 } ∧ (Memory.wf s.mem = true → Memory.wf m = true)) := by
  unfold State.hardwareInterrupt
  cases h : deviceAttached index with
  | false => exact .inl ⟨rfl, by simp⟩
  | true =>
    obtain ⟨g, m, he, hw⟩ := applyAnswer_eq s (Config.hwiAnswer s.hostDraws index s.deviceView)
    exact .inr ⟨rfl, g, m, by simp [he, State.countDraw], hw⟩

end Sys2Proof.Machine
end

