-- ==== Sys2Proof/Laws/HostActions.lean ====
section
/-! SUPPORT. What the host side does: the value a device's answer leaves in each register and word, what each host action
other than the step can do, and that each of them keeps the invariant. -/

namespace Sys2Proof.Machine

/-! ## A device's answer, write by write -/

@[simp] theorem lastWritten_nil {κ : Type} [DecidableEq κ] (key : κ) (old : Word) : lastWritten [] key old = old := rfl

@[simp] theorem lastWritten_cons {κ : Type} [DecidableEq κ] (e : κ × Word) (writes : List (κ × Word)) (key : κ)
    (old : Word) :
    lastWritten (e :: writes) key old = lastWritten writes key (if e.1 = key then e.2 else old) := rfl

theorem setRegs_getReg (s : State) (writes : List (Reg × Word)) (r : Reg) :
    (s.setRegs writes).getReg r = lastWritten writes r (s.getReg r) := by
  induction writes generalizing s with
  | nil => rfl
  | cons e writes ih => simp only [State.setRegs, ih, setReg_getReg, lastWritten_cons, eq_comm]

theorem writeAll_readMem {s : State} (writes : List (Word × Word)) (k : Word) (h : Memory.wf s.mem = true) :
    (s.writeAll writes).readMem k = lastWritten writes k (s.readMem k) := by
  induction writes generalizing s with
  | nil => rfl
  | cons e writes ih =>
    rw [State.writeAll, ih (writeMem_wf e.1 e.2 h), lastWritten_cons]
    by_cases hk : e.1 = k
    · rw [if_pos hk, ← hk, writeMem_readMem_same _ _ h]
    · rw [if_neg hk, writeMem_readMem_other _ _ (Ne.symm hk)]

theorem applyAnswer_getReg (s : State) (ans : HwiAnswer) (r : Reg) :
    (s.applyAnswer ans).getReg r = lastWritten ans.regs r (s.getReg r) := by
  obtain ⟨m, hm⟩ := writeAll_eq (s.setRegs ans.regs) ans.words
  rw [State.applyAnswer, hm, ← setRegs_getReg]
  rfl

theorem applyAnswer_readMem {s : State} (ans : HwiAnswer) (k : Word) (h : Memory.wf s.mem = true) :
    (s.applyAnswer ans).readMem k = lastWritten ans.words k (s.readMem k) := by
  obtain ⟨g, hg⟩ := setRegs_eq s ans.regs
  rw [State.applyAnswer, hg]
  exact writeAll_readMem (s := { s with regs := g }) ans.words k h

/-! ## Reset, set_program and deliver_interrupt -/

/-- Everything a host action other than the step can do. -/
theorem hostAct_cases {act : HostAction} {s t : State} (h : hostAct act s = .next t) :
    (act = .reset ∧ t = s.resetNow) ∨
    (∃ image, act = .setProgram image ∧ image.length ≤ memorySize ∧ t = s.setProgram image) ∨
    (act = .step ∧ step s = .next t) ∨ (∃ m, act = .deliverInterrupt m ∧ t = s.deliverInterrupt m) := by
  cases act with
  | reset => cases h; exact .inl ⟨rfl, rfl⟩
  | setProgram image =>
    simp only [hostAct] at h
    split at h
    · cases h
    · next hl => cases h; exact .inr (.inl ⟨image, rfl, Nat.le_of_not_lt hl, rfl⟩)
  | step => exact .inr (.inr (.inl ⟨rfl, h⟩))
  | deliverInterrupt m => cases h; exact .inr (.inr (.inr ⟨m, rfl, rfl⟩))

/-- Everything a delivery can do: nothing to a halted core, else an overflow or the message at the tail. -/
theorem deliverInterrupt_cases (s : State) (m : Word) :
    (s.halt ≠ none ∧ s.deliverInterrupt m = s) ∨
    (s.halt = none ∧ queueCapacity ≤ s.queue.length ∧ s.deliverInterrupt m =
      s.haltWith { kind := .interruptQueueOverflow, pc := s.pc, word := none }) ∨
    (s.halt = none ∧ s.queue.length < queueCapacity ∧ s.deliverInterrupt m = s.setQueue (s.queue ++ [m])) := by
  unfold State.deliverInterrupt
  cases hh : s.halt with
  | some r => exact .inl ⟨by simp, rfl⟩
  | none =>
    rcases enqueue_cases s m with ⟨hq, he⟩ | ⟨hq, he⟩ <;> simp only [he]
    · exact .inr (.inl ⟨trivial, hq, trivial⟩)
    · exact .inr (.inr ⟨trivial, hq, trivial⟩)

/-- `set_program` of an image that fits keeps the invariant. -/
theorem setProgram_inv {s : State} {image : List Word} (hs : State.Inv s) (hl : image.length ≤ memorySize) :
    State.Inv (s.setProgram image) :=
  ⟨Memory.ofImage_wf (by simp only [memorySize] at hl; omega), hs.queue, hs.halt⟩

/-- A delivery keeps the invariant. -/
theorem deliverInterrupt_inv {s : State} (m : Word) (hs : State.Inv s) : State.Inv (s.deliverInterrupt m) := by
  rcases deliverInterrupt_cases s m with ⟨_, he⟩ | ⟨_, hq, he⟩ | ⟨hh, hq, he⟩ <;> rw [he]
  · exact hs
  · refine ⟨hs.mem, hs.queue, fun r hr => ?_⟩
    cases hr
    exact ⟨trivial, fun _ => le_antisymm hs.queue hq⟩
  · refine ⟨hs.mem, by simp; omega, fun r hr => ?_⟩
    rw [setQueue_halt, hh] at hr
    cases hr

end Sys2Proof.Machine
end

