-- ==== Sys2Proof/Laws/Operands.lean ====
section
/-! SUPPORT. What resolving an operand does to the state, once for all twelve classes, and the laws of locations. -/

namespace Sys2Proof.Machine

/-- What resolving an operand adds to PC: one for each next word it consumes. -/
def pcDelta : Operand → Word
  | .regNextWordPointer _ => 1
  | .pick => 1
  | .nextWordPointer => 1
  | .nextWordLiteral => 1
  | .reg _ => 0
  | .regPointer _ => 0
  | .pushPop => 0
  | .peek => 0
  | .sp => 0
  | .pc => 0
  | .ex => 0
  | .inlineLiteral _ => 0

/-- What resolving an operand adds to SP. -/
def spDelta : Operand → Position → Word
  | .pushPop, .a => 1
  | .pushPop, .b => 0xFFFF
  | .regNextWordPointer _, _ => 0
  | .pick, _ => 0
  | .nextWordPointer, _ => 0
  | .nextWordLiteral, _ => 0
  | .reg _, _ => 0
  | .regPointer _, _ => 0
  | .peek, _ => 0
  | .sp, _ => 0
  | .pc, _ => 0
  | .ex, _ => 0
  | .inlineLiteral _, _ => 0

/-- Resolving an operand changes PC and SP, by amounts its class fixes, and nothing else. -/
theorem resolve_state (o : Operand) (p : Position) (s : State) :
    (resolve o p s).2 = (s.setPc (s.pc + pcDelta o)).setSp (s.sp + spDelta o p) := by
  cases o <;> cases p <;> simp [resolve, pcDelta, spDelta, State.setPc, State.setSp, State.nextWord, BitVec.sub_eq_add_neg]

/-- The next words of a well-formed operand are those its class consumes. -/
theorem nextWords_of_wfAs (o : Operand) (p : Position) (h : o.wfAs p = true) :
    BitVec.ofNat 16 o.nextWords = pcDelta o := by
  cases o with
  | inlineLiteral v =>
    cases p with
    | b => simp [Operand.wfAs] at h
    | a =>
      simp only [Operand.wfAs, inlineRange, Bool.or_eq_true, beq_iff_eq, decide_eq_true_eq] at h
      rcases h with h | h
      · subst h; rfl
      · have : v = BitVec.ofNat 16 v.toNat := by simp
        generalize v.toNat = n at h this
        subst this
        interval_cases n <;> rfl
  | reg r => cases r <;> rfl
  | regPointer r => cases r <;> rfl
  | regNextWordPointer r => cases r <;> rfl
  | _ => rfl

section
variable (o : Operand) (p : Position) (s : State)

@[simp] theorem resolve_regs : (resolve o p s).2.regs = s.regs := by rw [resolve_state]; rfl
@[simp] theorem resolve_pc : (resolve o p s).2.pc = s.pc + pcDelta o := by rw [resolve_state]; rfl
@[simp] theorem resolve_sp : (resolve o p s).2.sp = s.sp + spDelta o p := by rw [resolve_state]; rfl
@[simp] theorem resolve_ex : (resolve o p s).2.ex = s.ex := by rw [resolve_state]; rfl
@[simp] theorem resolve_ia : (resolve o p s).2.ia = s.ia := by rw [resolve_state]; rfl
@[simp] theorem resolve_mem : (resolve o p s).2.mem = s.mem := by rw [resolve_state]; rfl
@[simp] theorem resolve_queue : (resolve o p s).2.queue = s.queue := by rw [resolve_state]; rfl
@[simp] theorem resolve_iqe : (resolve o p s).2.iqe = s.iqe := by rw [resolve_state]; rfl
@[simp] theorem resolve_halt : (resolve o p s).2.halt = s.halt := by rw [resolve_state]; rfl
@[simp] theorem resolve_hostDraws : (resolve o p s).2.hostDraws = s.hostDraws := by rw [resolve_state]; rfl
@[simp] theorem resolve_getReg (r : Reg) : (resolve o p s).2.getReg r = s.getReg r := by rw [resolve_state]; rfl
@[simp] theorem resolve_readMem (k : Word) : (resolve o p s).2.readMem k = s.readMem k := by rw [resolve_state]; rfl

end

/-- The location of an operand is a constant exactly when its class is read only. -/
theorem resolve_lit_iff (o : Operand) (p : Position) (s : State) :
    (∃ v, (resolve o p s).1 = .lit v) ↔ writable o = false := by
  cases o <;> cases p <;> simp [resolve, writable]

/-- The location of an operand is a register exactly when the operand is that register. -/
theorem resolve_reg_iff (o : Operand) (p : Position) (s : State) (r : Reg) :
    (resolve o p s).1 = .reg r ↔ o = .reg r := by
  cases o <;> cases p <;> simp [resolve]

theorem resolve_sp_iff (o : Operand) (p : Position) (s : State) : (resolve o p s).1 = .sp ↔ o = .sp := by
  cases o <;> cases p <;> simp [resolve]

theorem resolve_pc_iff (o : Operand) (p : Position) (s : State) : (resolve o p s).1 = .pc ↔ o = .pc := by
  cases o <;> cases p <;> simp [resolve]

theorem resolve_ex_iff (o : Operand) (p : Position) (s : State) : (resolve o p s).1 = .ex ↔ o = .ex := by
  cases o <;> cases p <;> simp [resolve]

/-! ## Both operands -/

/-- The state after both operands are resolved. -/
theorem resolveBoth_state (b a : Operand) (s : State) :
    (resolveBoth b a s).state =
      (s.setPc (s.pc + pcDelta a + pcDelta b)).setSp (s.sp + spDelta a .a + spDelta b .b) := by
  simp only [resolveBoth, resolveSource, resolve_state]; rfl

/-- The state after the sole operand of a special instruction is resolved. -/
theorem resolveSource_state (a : Operand) (s : State) :
    (resolveSource a s).state = (s.setPc (s.pc + pcDelta a)).setSp (s.sp + spDelta a .a) :=
  resolve_state a .a s

section
variable (b a : Operand) (s : State)

@[simp] theorem resolveBoth_regs : (resolveBoth b a s).state.regs = s.regs := by rw [resolveBoth_state]; rfl
@[simp] theorem resolveBoth_ex : (resolveBoth b a s).state.ex = s.ex := by rw [resolveBoth_state]; rfl
@[simp] theorem resolveBoth_ia : (resolveBoth b a s).state.ia = s.ia := by rw [resolveBoth_state]; rfl
@[simp] theorem resolveBoth_mem : (resolveBoth b a s).state.mem = s.mem := by rw [resolveBoth_state]; rfl
@[simp] theorem resolveBoth_queue : (resolveBoth b a s).state.queue = s.queue := by rw [resolveBoth_state]; rfl
@[simp] theorem resolveBoth_iqe : (resolveBoth b a s).state.iqe = s.iqe := by rw [resolveBoth_state]; rfl
@[simp] theorem resolveBoth_halt : (resolveBoth b a s).state.halt = s.halt := by rw [resolveBoth_state]; rfl
@[simp] theorem resolveBoth_hostDraws : (resolveBoth b a s).state.hostDraws = s.hostDraws := by
  rw [resolveBoth_state]; rfl
@[simp] theorem resolveBoth_getReg (r : Reg) : (resolveBoth b a s).state.getReg r = s.getReg r := by
  rw [resolveBoth_state]; rfl
@[simp] theorem resolveBoth_readMem (k : Word) : (resolveBoth b a s).state.readMem k = s.readMem k := by
  rw [resolveBoth_state]; rfl
@[simp] theorem resolveBoth_pc : (resolveBoth b a s).state.pc = s.pc + pcDelta a + pcDelta b := by
  rw [resolveBoth_state]; rfl
@[simp] theorem resolveBoth_sp : (resolveBoth b a s).state.sp = s.sp + spDelta a .a + spDelta b .b := by
  rw [resolveBoth_state]; rfl

@[simp] theorem resolveSource_regs : (resolveSource a s).state.regs = s.regs := resolve_regs a .a s
@[simp] theorem resolveSource_ex : (resolveSource a s).state.ex = s.ex := resolve_ex a .a s
@[simp] theorem resolveSource_ia : (resolveSource a s).state.ia = s.ia := resolve_ia a .a s
@[simp] theorem resolveSource_mem : (resolveSource a s).state.mem = s.mem := resolve_mem a .a s
@[simp] theorem resolveSource_queue : (resolveSource a s).state.queue = s.queue := resolve_queue a .a s
@[simp] theorem resolveSource_iqe : (resolveSource a s).state.iqe = s.iqe := resolve_iqe a .a s
@[simp] theorem resolveSource_halt : (resolveSource a s).state.halt = s.halt := resolve_halt a .a s
@[simp] theorem resolveSource_hostDraws : (resolveSource a s).state.hostDraws = s.hostDraws := resolve_hostDraws a .a s
@[simp] theorem resolveSource_getReg (r : Reg) : (resolveSource a s).state.getReg r = s.getReg r :=
  resolve_getReg a .a s r
@[simp] theorem resolveSource_readMem (k : Word) : (resolveSource a s).state.readMem k = s.readMem k :=
  resolve_readMem a .a s k
@[simp] theorem resolveSource_pc : (resolveSource a s).state.pc = s.pc + pcDelta a := resolve_pc a .a s
@[simp] theorem resolveSource_sp : (resolveSource a s).state.sp = s.sp + spDelta a .a := resolve_sp a .a s

end

theorem bloc_reg_iff (b a : Operand) (s : State) (r : Reg) : (resolveBoth b a s).bloc = .reg r ↔ b = .reg r :=
  resolve_reg_iff b .b _ r
theorem bloc_sp_iff (b a : Operand) (s : State) : (resolveBoth b a s).bloc = .sp ↔ b = .sp := resolve_sp_iff b .b _
theorem bloc_pc_iff (b a : Operand) (s : State) : (resolveBoth b a s).bloc = .pc ↔ b = .pc := resolve_pc_iff b .b _
theorem bloc_ex_iff (b a : Operand) (s : State) : (resolveBoth b a s).bloc = .ex ↔ b = .ex := resolve_ex_iff b .b _

/-! ## Locations -/

/-- A write through a location fails only at a constant. -/
theorem Loc.write_eq_none {l : Loc} {v : Word} {s : State} : l.write v s = none ↔ ∃ u, l = .lit u := by
  cases l <;> simp [Loc.write]

/-- A write through a writable operand's location succeeds. -/
theorem write_resolve_isSome (o : Operand) (p : Position) (v : Word) (s t : State) (h : writable o = true) :
    ∃ u, (resolve o p s).1.write v t = some u := by
  cases hw : (resolve o p s).1.write v t with
  | some u => exact ⟨u, rfl⟩
  | none =>
    have := (resolve_lit_iff o p s).1 (Loc.write_eq_none.1 hw)
    simp [h] at this

/-- A write through a read-only operand's location fails. -/
theorem write_resolve_eq_none (o : Operand) (p : Position) (v : Word) (s t : State) (h : writable o = false) :
    (resolve o p s).1.write v t = none :=
  Loc.write_eq_none.2 ((resolve_lit_iff o p s).2 h)

/-- Reading a location after writing it gives the word written. -/
theorem Loc.read_write {l : Loc} {v : Word} {s t : State} (h : l.write v s = some t) (hm : Memory.wf s.mem = true) :
    l.read t = v := by
  cases l <;> simp [Loc.write] at h <;> subst h <;> simp [Loc.read, writeMem_readMem_same, hm]

/-- What a write through a location leaves alone: everything but its one target. -/
structure Loc.Frame (l : Loc) (s t : State) : Prop where
  regs : ∀ r, l ≠ .reg r → t.getReg r = s.getReg r
  sp : l ≠ .sp → t.sp = s.sp
  pc : l ≠ .pc → t.pc = s.pc
  ex : l ≠ .ex → t.ex = s.ex
  words : ∀ k, l.address ≠ some k → t.readMem k = s.readMem k
  ia : t.ia = s.ia
  queue : t.queue = s.queue
  iqe : t.iqe = s.iqe
  halt : t.halt = s.halt
  hostDraws : t.hostDraws = s.hostDraws
  wf : Memory.wf s.mem = true → Memory.wf t.mem = true

theorem Loc.write_frame {l : Loc} {v : Word} {s t : State} (h : l.write v s = some t) : l.Frame s t := by
  cases l with
  | reg r =>
    simp [Loc.write] at h; subst h
    exact ⟨fun q hq => setReg_getReg_other s v fun e => hq (e ▸ rfl), fun _ => rfl, fun _ => rfl, fun _ => rfl,
      fun _ _ => rfl, rfl, rfl, rfl, rfl, rfl, id⟩
  | mem n =>
    simp [Loc.write] at h; subst h
    exact ⟨fun _ _ => rfl, fun _ => rfl, fun _ => rfl, fun _ => rfl,
      fun k hk => writeMem_readMem_other s v fun e => hk (e ▸ rfl), rfl, rfl, rfl, rfl, rfl, writeMem_wf n v⟩
  | sp =>
    simp [Loc.write] at h; subst h
    exact ⟨fun _ _ => rfl, fun h => absurd rfl h, fun _ => rfl, fun _ => rfl, fun _ _ => rfl, rfl, rfl, rfl, rfl, rfl, id⟩
  | pc =>
    simp [Loc.write] at h; subst h
    exact ⟨fun _ _ => rfl, fun _ => rfl, fun h => absurd rfl h, fun _ => rfl, fun _ _ => rfl, rfl, rfl, rfl, rfl, rfl, id⟩
  | ex =>
    simp [Loc.write] at h; subst h
    exact ⟨fun _ _ => rfl, fun _ => rfl, fun _ => rfl, fun h => absurd rfl h, fun _ _ => rfl, rfl, rfl, rfl, rfl, rfl, id⟩
  | lit u => simp [Loc.write] at h

end Sys2Proof.Machine
end

