-- ==== Sys2Proof/Laws/PerInstr.lean ====
section
/-! SUPPORT. Facts proved per instruction, one lemma per constructor of Instr. -/

namespace Sys2Proof.Laws.EncodedLength

/-- The length read from an instruction's word alone is the length of the instruction (30_encoding.md R58). -/
def Statement (i : Instr) : Prop := i.wf = true → wordLength (encode i) = i.length

theorem of_basic (b a : Operand) (op : BitVec 5) (hop : op ≠ 0) (hb : b.wfAs .b = true) :
    wordLength (packWord a.selector (b.selector.setWidth 5) op) = 1 + a.nextWords + b.nextWords := by
  simp only [wordLength, opField_packWord, aField_packWord, bField_packWord, if_neg hop,
    selector_setWidth_of_wfAs_b b hb, Operand.nextWords]

theorem of_special (a : Operand) (o : BitVec 5) : wordLength (packWord a.selector o 0) = 1 + a.nextWords := by
  simp [wordLength, Operand.nextWords]

theorem wf_basic {b a : Operand} (h : (Shape.basic b a).wf = true) : b.wfAs .b = true := by
  simp only [Shape.wf, Bool.and_eq_true] at h
  exact h.1

theorem set (b a : Operand) : Statement (.set b a) := fun h => of_basic b a _ (by simp [Instr.opcode]) (wf_basic h)
theorem add (b a : Operand) : Statement (.add b a) := fun h => of_basic b a _ (by simp [Instr.opcode]) (wf_basic h)
theorem sub (b a : Operand) : Statement (.sub b a) := fun h => of_basic b a _ (by simp [Instr.opcode]) (wf_basic h)
theorem mul (b a : Operand) : Statement (.mul b a) := fun h => of_basic b a _ (by simp [Instr.opcode]) (wf_basic h)
theorem mli (b a : Operand) : Statement (.mli b a) := fun h => of_basic b a _ (by simp [Instr.opcode]) (wf_basic h)
theorem div (b a : Operand) : Statement (.div b a) := fun h => of_basic b a _ (by simp [Instr.opcode]) (wf_basic h)
theorem dvi (b a : Operand) : Statement (.dvi b a) := fun h => of_basic b a _ (by simp [Instr.opcode]) (wf_basic h)
theorem mod (b a : Operand) : Statement (.mod b a) := fun h => of_basic b a _ (by simp [Instr.opcode]) (wf_basic h)
theorem mdi (b a : Operand) : Statement (.mdi b a) := fun h => of_basic b a _ (by simp [Instr.opcode]) (wf_basic h)
theorem and (b a : Operand) : Statement (.and b a) := fun h => of_basic b a _ (by simp [Instr.opcode]) (wf_basic h)
theorem bor (b a : Operand) : Statement (.bor b a) := fun h => of_basic b a _ (by simp [Instr.opcode]) (wf_basic h)
theorem xor (b a : Operand) : Statement (.xor b a) := fun h => of_basic b a _ (by simp [Instr.opcode]) (wf_basic h)
theorem shr (b a : Operand) : Statement (.shr b a) := fun h => of_basic b a _ (by simp [Instr.opcode]) (wf_basic h)
theorem asr (b a : Operand) : Statement (.asr b a) := fun h => of_basic b a _ (by simp [Instr.opcode]) (wf_basic h)
theorem shl (b a : Operand) : Statement (.shl b a) := fun h => of_basic b a _ (by simp [Instr.opcode]) (wf_basic h)
theorem ifb (b a : Operand) : Statement (.ifb b a) := fun h => of_basic b a _ (by simp [Instr.opcode]) (wf_basic h)
theorem ifc (b a : Operand) : Statement (.ifc b a) := fun h => of_basic b a _ (by simp [Instr.opcode]) (wf_basic h)
theorem ife (b a : Operand) : Statement (.ife b a) := fun h => of_basic b a _ (by simp [Instr.opcode]) (wf_basic h)
theorem ifn (b a : Operand) : Statement (.ifn b a) := fun h => of_basic b a _ (by simp [Instr.opcode]) (wf_basic h)
theorem ifg (b a : Operand) : Statement (.ifg b a) := fun h => of_basic b a _ (by simp [Instr.opcode]) (wf_basic h)
theorem ifa (b a : Operand) : Statement (.ifa b a) := fun h => of_basic b a _ (by simp [Instr.opcode]) (wf_basic h)
theorem ifl (b a : Operand) : Statement (.ifl b a) := fun h => of_basic b a _ (by simp [Instr.opcode]) (wf_basic h)
theorem ifu (b a : Operand) : Statement (.ifu b a) := fun h => of_basic b a _ (by simp [Instr.opcode]) (wf_basic h)
theorem adx (b a : Operand) : Statement (.adx b a) := fun h => of_basic b a _ (by simp [Instr.opcode]) (wf_basic h)
theorem sbx (b a : Operand) : Statement (.sbx b a) := fun h => of_basic b a _ (by simp [Instr.opcode]) (wf_basic h)
theorem sti (b a : Operand) : Statement (.sti b a) := fun h => of_basic b a _ (by simp [Instr.opcode]) (wf_basic h)
theorem std (b a : Operand) : Statement (.std b a) := fun h => of_basic b a _ (by simp [Instr.opcode]) (wf_basic h)
theorem jsr (a : Operand) : Statement (.jsr a) := fun _ => of_special a _
theorem int (a : Operand) : Statement (.int a) := fun _ => of_special a _
theorem iag (a : Operand) : Statement (.iag a) := fun _ => of_special a _
theorem ias (a : Operand) : Statement (.ias a) := fun _ => of_special a _
theorem rfi (a : Operand) : Statement (.rfi a) := fun _ => of_special a _
theorem iaq (a : Operand) : Statement (.iaq a) := fun _ => of_special a _
theorem hwn (a : Operand) : Statement (.hwn a) := fun _ => of_special a _
theorem hwq (a : Operand) : Statement (.hwq a) := fun _ => of_special a _
theorem hwi (a : Operand) : Statement (.hwi a) := fun _ => of_special a _

end Sys2Proof.Laws.EncodedLength
end

