-- ==== Sys2Proof/Laws/Template.lean ====
section
/-! SUPPORT. What each execution template can do, once: the inversion of the write-back and of the three templates that
end in it, and of the conditional. -/

namespace Sys2Proof.Machine

/-- The write-back answers a next state exactly when the write succeeds. -/
theorem writeBack_next {i : Instr} {e s t : State} {l : Loc} {v : Word} {rest : State → State} :
    writeBack i e l v s rest = .next t ↔ ∃ u, l.write v s = some u ∧ t = rest u := by
  unfold writeBack
  cases l.write v s <;> simp [eq_comm]

/-- The write-back faults exactly when the location is a constant, and then with InvalidWriteTarget. -/
theorem writeBack_fault {i : Instr} {e s : State} {l : Loc} {v : Word} {rest : State → State} {f : Fault} :
    writeBack i e l v s rest = .fault f ↔ (∃ u, l = .lit u) ∧ f = .fatal (e.faultBy .invalidWriteTarget i) := by
  unfold writeBack
  rw [← Loc.write_eq_none (v := v) (s := s)]
  cases l.write v s <;> simp [eq_comm]

theorem writeBack_ne_refused {i : Instr} {e s : State} {l : Loc} {v : Word} {rest : State → State} {r : Refusal} :
    writeBack i e l v s rest ≠ .refused r := by
  unfold writeBack
  cases l.write v s <;> simp

/-- Completion of the write-back at a writable `b`. -/
theorem writeBack_both (i : Instr) (b a : Operand) (v : Word) (s : State) (rest : State → State)
    (h : writable b = true) :
    ∃ u, (resolveBoth b a s).bloc.write v (resolveBoth b a s).state = some u ∧
      writeBack i s (resolveBoth b a s).bloc v (resolveBoth b a s).state rest = .next (rest u) := by
  obtain ⟨u, hu⟩ := write_resolve_isSome b .b v (resolveSource a s).state (resolveBoth b a s).state h
  exact ⟨u, hu, writeBack_next.2 ⟨u, hu, rfl⟩⟩

/-- The write-back at a read-only `b` raises InvalidWriteTarget. -/
theorem writeBack_both_lit (i : Instr) (b a : Operand) (v : Word) (s : State) (rest : State → State)
    (h : writable b = false) :
    writeBack i s (resolveBoth b a s).bloc v (resolveBoth b a s).state rest =
      .fault (.fatal (s.faultBy .invalidWriteTarget i)) :=
  writeBack_fault.2 ⟨(resolve_lit_iff b .b _).2 h, rfl⟩

/-- The address a write through a resolved operand stores to is the location's. -/
theorem both_write_frame {b a : Operand} {s u : State} {v : Word}
    (h : (resolveBoth b a s).bloc.write v (resolveBoth b a s).state = some u) :
    (resolveBoth b a s).bloc.Frame (resolveBoth b a s).state u :=
  Loc.write_frame h

theorem stepIndexRegs_getReg (d : Word → Word) (s : State) (r : Reg) :
    (stepIndexRegs d s).getReg r = if r = .i ∨ r = .j then d (s.getReg r) else s.getReg r := by
  cases r <;> rfl

@[simp] theorem stepIndexRegs_mem (d : Word → Word) (s : State) : (stepIndexRegs d s).mem = s.mem := rfl
@[simp] theorem stepIndexRegs_pc (d : Word → Word) (s : State) : (stepIndexRegs d s).pc = s.pc := rfl
@[simp] theorem stepIndexRegs_sp (d : Word → Word) (s : State) : (stepIndexRegs d s).sp = s.sp := rfl
@[simp] theorem stepIndexRegs_ex (d : Word → Word) (s : State) : (stepIndexRegs d s).ex = s.ex := rfl
@[simp] theorem stepIndexRegs_ia (d : Word → Word) (s : State) : (stepIndexRegs d s).ia = s.ia := rfl
@[simp] theorem stepIndexRegs_queue (d : Word → Word) (s : State) : (stepIndexRegs d s).queue = s.queue := rfl
@[simp] theorem stepIndexRegs_iqe (d : Word → Word) (s : State) : (stepIndexRegs d s).iqe = s.iqe := rfl
@[simp] theorem stepIndexRegs_halt (d : Word → Word) (s : State) : (stepIndexRegs d s).halt = s.halt := rfl
@[simp] theorem stepIndexRegs_hostDraws (d : Word → Word) (s : State) : (stepIndexRegs d s).hostDraws = s.hostDraws := rfl
@[simp] theorem stepIndexRegs_readMem (d : Word → Word) (s : State) (k : Word) :
    (stepIndexRegs d s).readMem k = s.readMem k := rfl

/-- Everything a conditional can do. -/
theorem conditional_cases {b a : Operand} {cond : Word → Word → Bool} {s : State} {o : Result}
    (h : conditional b a cond s = o) :
    (cond (resolveBoth b a s).b (resolveBoth b a s).a = true ∧ o = .next (resolveBoth b a s).state) ∨
    (cond (resolveBoth b a s).b (resolveBoth b a s).a = false ∧
      ((∃ p, skipChain s.mem memorySize (resolveBoth b a s).state.pc = some p ∧
        o = .next ((resolveBoth b a s).state.setPc p)) ∨
      (skipChain s.mem memorySize (resolveBoth b a s).state.pc = none ∧ o = .fault .skipChainNeverEnds))) := by
  simp only [conditional, resolveBoth_mem] at h
  subst h
  cases hc : cond (resolveBoth b a s).b (resolveBoth b a s).a with
  | true => exact .inl ⟨rfl, by simp⟩
  | false =>
    refine .inr ⟨rfl, ?_⟩
    cases hk : skipChain s.mem memorySize (resolveBoth b a s).state.pc with
    | some p => exact .inl ⟨p, rfl, by simp⟩
    | none => exact .inr ⟨rfl, by simp⟩

/-! ## What each template answers -/

/-- A location that is not EX reads the same after EX is written. -/
theorem Loc.read_setEx {l : Loc} (h : l ≠ .ex) (s : State) (v : Word) : l.read (s.setEx v) = l.read s := by
  cases l <;> first | rfl | exact absurd rfl h

/-- `computeResult` completes at a writable `b`: the result is in `b`, and EX is unchanged unless it is `b`. -/
theorem computeResult_completes (i : Instr) (b a : Operand) (f : Word → Word → Word) (s : State)
    (hb : writable b = true) (hm : Memory.wf s.mem = true) :
    ∃ t, computeResult i b a f s = .next t ∧
      (resolveBoth b a s).bloc.read t = f (resolveBoth b a s).b (resolveBoth b a s).a ∧ (b ≠ .ex → t.ex = s.ex) := by
  obtain ⟨u, hu, he⟩ := writeBack_both i b a (f (resolveBoth b a s).b (resolveBoth b a s).a) s id hb
  refine ⟨u, he, Loc.read_write hu (by simpa using hm), fun h => ?_⟩
  rw [(Loc.write_frame hu).ex fun e => h ((bloc_ex_iff b a s).1 e), resolveBoth_ex]

/-- `computeResultEx` completes at a writable `b`: the result is in `b`, unless it is EX, and EX is the rule's value. -/
theorem computeResultEx_completes (i : Instr) (b a : Operand) (f g : Word → Word → Word → Word) (s : State)
    (hb : writable b = true) (hm : Memory.wf s.mem = true) :
    ∃ t, computeResultEx i b a f g s = .next t ∧
      (b ≠ .ex → (resolveBoth b a s).bloc.read t = f (resolveBoth b a s).b (resolveBoth b a s).a s.ex) ∧
      t.ex = g (resolveBoth b a s).b (resolveBoth b a s).a s.ex := by
  obtain ⟨u, hu, he⟩ := writeBack_both i b a (f (resolveBoth b a s).b (resolveBoth b a s).a (resolveBoth b a s).state.ex) s
    (fun t => t.setEx (g (resolveBoth b a s).b (resolveBoth b a s).a (resolveBoth b a s).state.ex)) hb
  refine ⟨_, he, fun h => ?_, by simp⟩
  rw [Loc.read_setEx fun e => h ((bloc_ex_iff b a s).1 e), Loc.read_write hu (by simpa using hm), resolveBoth_ex]

/-- `transfer` completes at a writable `b`: it does the rest from the state the write of `a` leaves. -/
theorem transfer_completes (i : Instr) (b a : Operand) (rest : State → State) (s : State) (hb : writable b = true) :
    ∃ u, (resolveBoth b a s).bloc.write (resolveBoth b a s).a (resolveBoth b a s).state = some u ∧
      transfer i b a rest s = .next (rest u) :=
  writeBack_both i b a (resolveBoth b a s).a s rest hb

/-- What `computeResult` answers when it answers a next state. -/
theorem computeResult_next {i : Instr} {b a : Operand} {f : Word → Word → Word} {s t : State}
    (h : computeResult i b a f s = .next t) : (resolveBoth b a s).bloc.Frame (resolveBoth b a s).state t := by
  obtain ⟨u, hu, rfl⟩ := writeBack_next.1 h
  exact Loc.write_frame hu

/-- What `computeResultEx` answers when it answers a next state. -/
theorem computeResultEx_next {i : Instr} {b a : Operand} {f g : Word → Word → Word → Word} {s t : State}
    (h : computeResultEx i b a f g s = .next t) :
    ∃ u v, (resolveBoth b a s).bloc.Frame (resolveBoth b a s).state u ∧ t = u.setEx v := by
  obtain ⟨u, hu, rfl⟩ := writeBack_next.1 h
  exact ⟨u, _, Loc.write_frame hu, rfl⟩

/-- What `transfer` answers when it answers a next state. -/
theorem transfer_next {i : Instr} {b a : Operand} {rest : State → State} {s t : State}
    (h : transfer i b a rest s = .next t) :
    ∃ u, (resolveBoth b a s).bloc.write (resolveBoth b a s).a (resolveBoth b a s).state = some u ∧ t = rest u :=
  writeBack_next.1 h

end Sys2Proof.Machine
end

