-- ==== Sys2Proof/Laws/Step.lean ====
section
/-! SUPPORT. What a step can do, once: the inversion of fetch and decode, of settling a fault, and of the step. -/

namespace Sys2Proof.Machine

/-- Fetch and decode: an invalid word faults, a valid one runs its instruction with PC past its word. -/
theorem runInstruction_cases (s : State) :
    (∃ e, decode (s.readMem s.pc) = .error e ∧
      runInstruction s = .fault (.fatal { kind := .invalidOpcode, pc := s.pc, word := some (s.readMem s.pc) })) ∨
    (∃ i, decode (s.readMem s.pc) = .ok i ∧ runInstruction s = exec i (s.setPc (s.pc + 1))) := by
  unfold runInstruction
  simp only [State.nextWord]
  cases h : decode (s.readMem s.pc) with
  | error e => exact .inl ⟨e, rfl, rfl⟩
  | ok i => exact .inr ⟨i, rfl, rfl⟩

/-- What settling gives when it gives a next state. -/
theorem settle_next {s0 t : State} {r : Result} :
    settle s0 r = .next t ↔ r = .next t ∨ ∃ f, r = .fault (.fatal f) ∧ t = s0.haltWith f := by
  cases r with
  | next u => simp [settle]
  | refused r => simp [settle]
  | fault f => cases f <;> simp [settle, eq_comm]

/-- What a step that answers a next state did: the core was not halted, and either the instruction completed or a fatal
fault left the state it started from with `halt` recorded. -/
theorem step_next {s t : State} (h : step s = .next t) :
    s.halt = none ∧
      (runInstruction s.takeInterrupt = .next t ∨
        ∃ f, runInstruction s.takeInterrupt = .fault (.fatal f) ∧ t = s.haltWith f) := by
  unfold step at h
  cases hh : s.halt with
  | some r => simp [hh] at h
  | none =>
    simp only [hh, runStep] at h
    exact ⟨rfl, settle_next.1 h⟩

theorem step_halted {s : State} {r : FaultRecord} (h : s.halt = some r) : step s = .fault (.fatal r) := by
  simp [step, h]

theorem step_running {s : State} (h : s.halt = none) : step s = settle s (runInstruction s.takeInterrupt) := by
  simp [step, h, runStep]

end Sys2Proof.Machine
end

