-- ==== Sys2Proof/Tests/Slice0.lean ====
section
/-! SUPPORT. The model's own tests: the well-formedness smoke test, hand-written words, one-step vectors of
spec/95_test_vectors.md, and for every statement with hypotheses a witness that meets them. Every expected value of a
vector is the spec's. -/

namespace Sys2Proof.Tests

open Sys2Proof Sys2Proof.Machine

/-! ## Helpers -/

/-- The reset state with words placed from an address up, and PC there. -/
def prog (start : Word) (ws : List Word) : State := (State.reset.writeWords start ws).setPc start

/-- The state after one step, if the step has a next state. -/
def after (s : State) : Option State :=
  match step s with
  | .next t => some t
  | .fault _ => none
  | .refused _ => none

/-- A vector: the words at an address, what its "before" column sets, and what its "after" column lists; nothing else
changes (spec/95_test_vectors.md section 0). -/
def vector (start : Word) (ws : List Word) (before changed : State → State) : Bool :=
  decide (after (before (prog start ws)) = some (changed (before (prog start ws))))

/-- The record of a fault that an instruction raised. -/
def fatal (k : FaultKind) (pc w : Word) : FaultRecord := { kind := k, pc := pc, word := some w }

/-! ## Well-formedness: an ill-formed term for each check -/

/-- An inline literal is no `b` operand (30_encoding.md R62). -/
theorem test_wf_refuses_inline_b : (Instr.set (.inlineLiteral 5) (.reg .a)).wf = false := by decide

/-- 31 has no inline selector (30_encoding.md R60), in the basic and in the special format. -/
theorem test_wf_refuses_inline_31 :
    (Instr.set (.reg .a) (.inlineLiteral 31)).wf = false ∧ (Instr.jsr (.inlineLiteral 31)).wf = false := by decide

/-- -2 has no inline selector (30_encoding.md R60). -/
theorem test_wf_refuses_inline_minus_two : (Instr.add (.reg .a) (.inlineLiteral 0xFFFE)).wf = false := by decide

/-- The ends of the inline range (30_encoding.md R60). -/
theorem test_wf_accepts_inline_ends :
    (Instr.set (.reg .a) (.inlineLiteral 0xFFFF)).wf = true ∧ (Instr.set (.reg .a) (.inlineLiteral 30)).wf = true ∧
    (Instr.iag (.inlineLiteral 0)).wf = true := by decide

/-! ## Decoding: a word written out for every constructor, its fields `a`, `b`, `op` or `a`, `o`, 0 (30_encoding.md R55 to
R64) -/

/-- SET to MDI (42_basic_arith.md). -/
theorem test_decode_arith :
    decode 0b011111_00000_00001 = .ok (.set (.reg .a) .nextWordLiteral) ∧
    decode 0b100011_00001_00010 = .ok (.add (.reg .b) (.inlineLiteral 2)) ∧
    decode 0b000000_01010_00011 = .ok (.sub (.regPointer .c) (.reg .a)) ∧
    decode 0b001111_10011_00100 = .ok (.mul (.regNextWordPointer .x) (.regPointer .j)) ∧
    decode 0b011000_11000_00101 = .ok (.mli .pushPop .pushPop) ∧
    decode 0b011010_11001_00110 = .ok (.div .peek .pick) ∧
    decode 0b011001_11010_00111 = .ok (.dvi .pick .peek) ∧
    decode 0b011100_11011_01000 = .ok (.mod .sp .pc) ∧
    decode 0b011101_11100_01001 = .ok (.mdi .pc .ex) := by decide

/-- AND to SHL (43_basic_bitwise.md). -/
theorem test_decode_bitwise :
    decode 0b011011_11101_01010 = .ok (.and .ex .sp) ∧
    decode 0b011110_11110_01011 = .ok (.bor .nextWordPointer .nextWordPointer) ∧
    decode 0b100000_11111_01100 = .ok (.xor .nextWordLiteral (.inlineLiteral 0xFFFF)) ∧
    decode 0b100001_00011_01101 = .ok (.shr (.reg .x) (.inlineLiteral 0)) ∧
    decode 0b111111_00100_01110 = .ok (.asr (.reg .y) (.inlineLiteral 30)) ∧
    decode 0b010110_00101_01111 = .ok (.shl (.reg .z) (.regNextWordPointer .i)) := by decide

/-- IFB to IFU (44_basic_conditional.md). -/
theorem test_decode_conditional :
    decode 0b000111_00110_10000 = .ok (.ifb (.reg .i) (.reg .j)) ∧
    decode 0b010101_01000_10001 = .ok (.ifc (.regPointer .a) (.regNextWordPointer .z)) ∧
    decode 0b100010_00000_10010 = .ok (.ife (.reg .a) (.inlineLiteral 1)) ∧
    decode 0b000010_00001_10011 = .ok (.ifn (.reg .b) (.reg .c)) ∧
    decode 0b001001_00111_10100 = .ok (.ifg (.reg .j) (.regPointer .b)) ∧
    decode 0b000011_10100_10101 = .ok (.ifa (.regNextWordPointer .y) (.reg .x)) ∧
    decode 0b110000_00010_10110 = .ok (.ifl (.reg .c) (.inlineLiteral 15)) ∧
    decode 0b000100_01110_10111 = .ok (.ifu (.regPointer .i) (.reg .y)) := by decide

/-- ADX to STD (45_basic_carry_transfer.md). -/
theorem test_decode_carry_transfer :
    decode 0b000001_00000_11010 = .ok (.adx (.reg .a) (.reg .b)) ∧
    decode 0b000000_00001_11011 = .ok (.sbx (.reg .b) (.reg .a)) ∧
    decode 0b001111_01110_11110 = .ok (.sti (.regPointer .i) (.regPointer .j)) ∧
    decode 0b001110_01111_11111 = .ok (.std (.regPointer .j) (.regPointer .i)) := by decide

/-- JSR to HWI (46_special.md). -/
theorem test_decode_special :
    decode 0b011111_00001_00000 = .ok (.jsr .nextWordLiteral) ∧
    decode 0b100110_01000_00000 = .ok (.int (.inlineLiteral 5)) ∧
    decode 0b010000_01001_00000 = .ok (.iag (.regNextWordPointer .a)) ∧
    decode 0b000101_01010_00000 = .ok (.ias (.reg .z)) ∧
    decode 0b011000_01011_00000 = .ok (.rfi .pushPop) ∧
    decode 0b100001_01100_00000 = .ok (.iaq (.inlineLiteral 0)) ∧
    decode 0b011110_10000_00000 = .ok (.hwn .nextWordPointer) ∧
    decode 0b000110_10001_00000 = .ok (.hwq (.reg .i)) ∧
    decode 0b000001_10010_00000 = .ok (.hwi (.reg .b)) := by decide

/-- Unassigned opcodes are no instruction, whatever the operands (30_encoding.md R65). -/
theorem test_decode_refuses_unassigned :
    decode 0x0000 = .error (.unassignedSpecial 0x00) ∧ decode 0x0018 = .error (.unassignedBasic 0x18) ∧
    decode 0x7c19 = .error (.unassignedBasic 0x19) ∧ decode 0x03fc = .error (.unassignedBasic 0x1C) ∧
    decode 0x001d = .error (.unassignedBasic 0x1D) ∧ decode 0x0040 = .error (.unassignedSpecial 0x02) ∧
    decode 0x00e0 = .error (.unassignedSpecial 0x07) ∧ decode 0x01a0 = .error (.unassignedSpecial 0x0D) ∧
    decode 0x0260 = .error (.unassignedSpecial 0x13) ∧ decode 0x03e0 = .error (.unassignedSpecial 0x1F) := by decide

/-- The host's numbering of an instruction's bits (one word, and a longer one whose other words are zeros). -/
theorem test_decode_table_word :
    decodeTableWord 16 0x7c01 = some (.set (.reg .a) .nextWordLiteral) ∧ decodeTableWord 16 0x7c18 = none := ⟨rfl, rfl⟩

/-- The words of `SET [0x2000], [0x3000]` in memory order (V148), and the length of an invalid word (30_encoding.md
R58). -/
theorem test_word_order_and_length :
    encodeWords (.set .nextWordPointer .nextWordPointer) 0x3000 0x2000 = [0x7bc1, 0x3000, 0x2000] ∧
    wordLength 0x7bc1 = 3 ∧ wordLength 0x7c18 = 2 := by decide

/-! ## Basic arithmetic, one or two vectors an instruction -/

/-- The largest inline literal (V3, SET A, 30). -/
theorem test_set_largest_inline : vector 0 [0xfc01] id
    (·.setReg .a 0x001E |>.setPc 0x0001) = true := by decide

/-- SET has no EX rule, so a SET of EX stays (V5, SET EX, 5). -/
theorem test_set_ex_is_kept : vector 0 [0x9ba1] (·.setEx 0x0009)
    (·.setPc 0x0001 |>.setEx 0x0005) = true := by decide

/-- The sum wraps and EX is 1 (V9, ADD A, lit 0xFFFF). -/
theorem test_add_carries : vector 0 [0x7c02, 0xffff] (·.setReg .a 0xFFFF)
    (·.setReg .a 0xFFFE |>.setPc 0x0002 |>.setEx 0x0001) = true := by decide

/-- EX is written after the result (V11, ADD EX, 1). -/
theorem test_add_to_ex_keeps_carry : vector 0 [0x8ba2] (·.setEx 0xFFFF)
    (·.setPc 0x0001 |>.setEx 0x0001) = true := by decide

/-- The difference wraps and EX is 0xFFFF (V15, SUB A, 5). -/
theorem test_sub_borrows : vector 0 [0x9803] (·.setReg .a 0x0003)
    (·.setReg .a 0xFFFE |>.setPc 0x0001 |>.setEx 0xFFFF) = true := by decide

/-- No borrow clears EX (V17, SUB A, 0). -/
theorem test_sub_clears_ex : vector 0 [0x8403] (·.setReg .a 0x0000 |>.setEx 0x0007)
    (·.setPc 0x0001 |>.setEx 0x0000) = true := by decide

/-- The high word of the product is EX (V19, MUL A, lit 0xFFFF). -/
theorem test_mul_high_word : vector 0 [0x7c04, 0xffff] (·.setReg .a 0xFFFF)
    (·.setReg .a 0x0001 |>.setPc 0x0002 |>.setEx 0xFFFE) = true := by decide

/-- The high word of a negative product (V22, MLI A, 2). -/
theorem test_mli_negative : vector 0 [0x8c05] (·.setReg .a 0xFFFF)
    (·.setReg .a 0xFFFE |>.setPc 0x0001 |>.setEx 0xFFFF) = true := by decide

/-- The most negative number squared (V24, MLI A, lit 0x8000). -/
theorem test_mli_most_negative : vector 0 [0x7c05, 0x8000] (·.setReg .a 0x8000)
    (·.setReg .a 0x0000 |>.setPc 0x0002 |>.setEx 0x4000) = true := by decide

/-- The fraction of an inexact quotient (V32, DIV A, lit 0xFFFE). -/
theorem test_div_fraction : vector 0 [0x7c06, 0xfffe] (·.setReg .a 0xFFF6)
    (·.setReg .a 0x0000 |>.setPc 0x0002 |>.setEx 0xFFF7) = true := by decide

/-- Division by zero clears both (V29, DIV A, 0). -/
theorem test_div_by_zero : vector 0 [0x8406] (·.setReg .a 0x000A |>.setEx 0x0005)
    (·.setReg .a 0x0000 |>.setPc 0x0001 |>.setEx 0x0000) = true := by decide

/-- The quotient rounds toward zero (V33, DVI A, 2). -/
theorem test_dvi_truncates : vector 0 [0x8c07] (·.setReg .a 0xFFF9)
    (·.setReg .a 0xFFFD |>.setPc 0x0001 |>.setEx 0x8000) = true := by decide

/-- The most negative number by -1 wraps (V35, DVI A, -1). -/
theorem test_dvi_most_negative : vector 0 [0x8007] (·.setReg .a 0x8000)
    (·.setPc 0x0001) = true := by decide

/-- The dividend is unsigned (V42, MOD A, 16). -/
theorem test_mod_unsigned : vector 0 [0xc408] (·.setReg .a 0xFFFF)
    (·.setReg .a 0x000F |>.setPc 0x0001) = true := by decide

/-- MOD has no EX rule, so a MOD of EX stays (V43, MOD EX, 3). -/
theorem test_mod_ex_is_kept : vector 0 [0x93a8] (·.setEx 0x0007)
    (·.setPc 0x0001 |>.setEx 0x0001) = true := by decide

/-- The remainder has the sign of the dividend (V48, MDI A, -3). -/
theorem test_mdi_sign_of_dividend : vector 0 [0x7c09, 0xfffd] (·.setReg .a 0xFFF9)
    (·.setReg .a 0xFFFF |>.setPc 0x0002) = true := by decide

/-- Modulo by zero gives 0 (V47, MDI A, 0). -/
theorem test_mdi_by_zero : vector 0 [0x8409] (·.setReg .a 0xFFF9)
    (·.setReg .a 0x0000 |>.setPc 0x0001) = true := by decide

/-! ## Bitwise operations and shifts -/

/-- Bitwise and (V49, AND A, lit 0xFF00). -/
theorem test_and : vector 0 [0x7c0a, 0xff00] (·.setReg .a 0xF0F0)
    (·.setReg .a 0xF000 |>.setPc 0x0002) = true := by decide

/-- Bitwise or (V50, BOR A, lit 0x0F0F). -/
theorem test_bor : vector 0 [0x7c0b, 0x0f0f] (·.setReg .a 0xF0F0)
    (·.setReg .a 0xFFFF |>.setPc 0x0002) = true := by decide

/-- Bitwise exclusive or (V51, XOR A, lit 0x00FF). -/
theorem test_xor : vector 0 [0x7c0c, 0x00ff] (·.setReg .a 0xFFFF)
    (·.setReg .a 0xFF00 |>.setPc 0x0002) = true := by decide

/-- The bit shifted out is the top bit of EX (V54, SHR A, 1). -/
theorem test_shr_bit_out : vector 0 [0x880d] (·.setReg .a 0x8001)
    (·.setReg .a 0x4000 |>.setPc 0x0001 |>.setEx 0x8000) = true := by decide

/-- Amounts above 15 are not masked (V59, SHR A, 17). -/
theorem test_shr_by_seventeen : vector 0 [0xc80d] (·.setReg .a 0xFFFF)
    (·.setReg .a 0x0000 |>.setPc 0x0001 |>.setEx 0x7FFF) = true := by decide

/-- The sign is shifted in (V62, ASR A, 1). -/
theorem test_asr_keeps_sign : vector 0 [0x880e] (·.setReg .a 0x8001)
    (·.setReg .a 0xC000 |>.setPc 0x0001 |>.setEx 0x8000) = true := by decide

/-- The largest amount leaves the sign (V69, ASR A, lit 0xFFFF). -/
theorem test_asr_by_all : vector 0 [0x7c0e, 0xffff] (·.setReg .a 0x8000)
    (·.setReg .a 0xFFFF |>.setPc 0x0002) = true := by decide

/-- The bits shifted out are the low bits of EX (V72, SHL A, 4). -/
theorem test_shl_bits_out : vector 0 [0x940f] (·.setReg .a 0x1234)
    (·.setReg .a 0x2340 |>.setPc 0x0001 |>.setEx 0x0001) = true := by decide

/-- Only one bit reaches EX (V76, SHL A, lit 31). -/
theorem test_shl_by_thirty_one : vector 0 [0x7c0f, 0x001f] (·.setReg .a 0xFFFF)
    (·.setReg .a 0x0000 |>.setPc 0x0002 |>.setEx 0x8000) = true := by decide

/-! ## Carry arithmetic and index transfers -/

/-- All three terms count (V83, ADX A, lit 0xFFFF). -/
theorem test_adx_carries : vector 0 [0x7c1a, 0xffff] (·.setReg .a 0xFFFF |>.setEx 0xFFFF)
    (·.setReg .a 0xFFFD |>.setPc 0x0002 |>.setEx 0x0001) = true := by decide

/-- EX is 0 when the sum fits (V84, ADX A, 0). -/
theorem test_adx_clears_ex : vector 0 [0x841a] (·.setReg .a 0x0000 |>.setEx 0xFFFF)
    (·.setReg .a 0xFFFF |>.setPc 0x0001 |>.setEx 0x0000) = true := by decide

/-- EX is added to the difference (V87, SBX A, 3). -/
theorem test_sbx_takes_borrow : vector 0 [0x901b] (·.setReg .a 0x0005 |>.setEx 0xFFFF)
    (·.setReg .a 0x0001 |>.setPc 0x0001 |>.setEx 0x0000) = true := by decide

/-- A result above 0xFFFF is not a borrow (V90, SBX A, 0). -/
theorem test_sbx_above_range : vector 0 [0x841b] (·.setReg .a 0xFFFF |>.setEx 0x0001)
    (·.setReg .a 0x0000 |>.setPc 0x0001 |>.setEx 0x0000) = true := by decide

/-- The locations are fixed before I and J step (V93, STI [I], [J]). -/
theorem test_sti_copies_then_steps : vector 0 [0x3dde] (·.setReg .i 0x1000 |>.setReg .j 0x2000 |>.writeMem 0x2000 0x00AA)
    (·.setReg .i 0x1001 |>.setReg .j 0x2001 |>.setPc 0x0001 |>.writeMem 0x1000 0x00AA) = true := by decide

/-- The write to I comes before its step (V94, STI I, 7). -/
theorem test_sti_to_index : vector 0 [0xa0de] (·.setReg .i 0x0003 |>.setReg .j 0x0004)
    (·.setReg .i 0x0008 |>.setReg .j 0x0005 |>.setPc 0x0001) = true := by decide

/-- J is read before it steps (V96, STD A, J). -/
theorem test_std_reads_then_steps : vector 0 [0x1c1f] (·.setReg .j 0x0005)
    (·.setReg .a 0x0005 |>.setReg .i 0xFFFF |>.setReg .j 0x0004 |>.setPc 0x0001) = true := by decide

/-- The write to I comes before its step (V97, STD I, 7). -/
theorem test_std_to_index : vector 0 [0xa0df] (·.setReg .i 0x0003 |>.setReg .j 0x0004)
    (·.setReg .i 0x0006 |>.setReg .j 0x0003 |>.setPc 0x0001) = true := by decide

/-! ## The eight conditions: PC after one step is 2 where the condition holds, 3 where `SET B, 1` is skipped -/

/-- The condition holds (V98, IFB A, lit 0x0004; SET B, 1; SET C, 1). -/
theorem test_ifb_holds : vector 0 [0x7c10, 0x0004, 0x8821, 0x8841] (·.setReg .a 0x0006)
    (·.setPc 0x0002) = true := by decide

/-- The condition fails (V99, IFB A, lit 0x0001; SET B, 1; SET C, 1). -/
theorem test_ifb_skips : vector 0 [0x7c10, 0x0001, 0x8821, 0x8841] (·.setReg .a 0x0006)
    (·.setPc 0x0003) = true := by decide

/-- The condition holds (V101, IFC A, lit 0x0001; SET B, 1; SET C, 1). -/
theorem test_ifc_holds : vector 0 [0x7c11, 0x0001, 0x8821, 0x8841] (·.setReg .a 0x0006)
    (·.setPc 0x0002) = true := by decide

/-- The condition fails (V102, IFC A, lit 0x0002; SET B, 1; SET C, 1). -/
theorem test_ifc_skips : vector 0 [0x7c11, 0x0002, 0x8821, 0x8841] (·.setReg .a 0x0006)
    (·.setPc 0x0003) = true := by decide

/-- The condition holds (V104, IFE A, lit 0x0001; SET B, 1; SET C, 1). -/
theorem test_ife_holds : vector 0 [0x7c12, 0x0001, 0x8821, 0x8841] (·.setReg .a 0x0001)
    (·.setPc 0x0002) = true := by decide

/-- The condition fails (V105, IFE A, lit 0x0002; SET B, 1; SET C, 1). -/
theorem test_ife_skips : vector 0 [0x7c12, 0x0002, 0x8821, 0x8841] (·.setReg .a 0x0001)
    (·.setPc 0x0003) = true := by decide

/-- The condition holds (V106, IFN A, lit 0x0002; SET B, 1; SET C, 1). -/
theorem test_ifn_holds : vector 0 [0x7c13, 0x0002, 0x8821, 0x8841] (·.setReg .a 0x0001)
    (·.setPc 0x0002) = true := by decide

/-- The condition fails (V107, IFN A, lit 0x0001; SET B, 1; SET C, 1). -/
theorem test_ifn_skips : vector 0 [0x7c13, 0x0001, 0x8821, 0x8841] (·.setReg .a 0x0001)
    (·.setPc 0x0003) = true := by decide

/-- The condition holds (V108, IFG A, lit 0x0001; SET B, 1; SET C, 1). -/
theorem test_ifg_holds : vector 0 [0x7c14, 0x0001, 0x8821, 0x8841] (·.setReg .a 0xFFFF)
    (·.setPc 0x0002) = true := by decide

/-- The condition fails (V110, IFG A, lit 0x0005; SET B, 1; SET C, 1). -/
theorem test_ifg_skips : vector 0 [0x7c14, 0x0005, 0x8821, 0x8841] (·.setReg .a 0x0005)
    (·.setPc 0x0003) = true := by decide

/-- The condition holds (V112, IFA A, lit 0xFFFF; SET B, 1; SET C, 1). -/
theorem test_ifa_holds : vector 0 [0x7c15, 0xffff, 0x8821, 0x8841] (·.setReg .a 0x0001)
    (·.setPc 0x0002) = true := by decide

/-- The condition fails (V111, IFA A, lit 0x0001; SET B, 1; SET C, 1). -/
theorem test_ifa_skips : vector 0 [0x7c15, 0x0001, 0x8821, 0x8841] (·.setReg .a 0xFFFF)
    (·.setPc 0x0003) = true := by decide

/-- The condition holds (V114, IFL A, lit 0xFFFF; SET B, 1; SET C, 1). -/
theorem test_ifl_holds : vector 0 [0x7c16, 0xffff, 0x8821, 0x8841] (·.setReg .a 0x0001)
    (·.setPc 0x0002) = true := by decide

/-- The condition fails (V116, IFL A, lit 0x0005; SET B, 1; SET C, 1). -/
theorem test_ifl_skips : vector 0 [0x7c16, 0x0005, 0x8821, 0x8841] (·.setReg .a 0x0005)
    (·.setPc 0x0003) = true := by decide

/-- The condition holds (V117, IFU A, lit 0x7FFF; SET B, 1; SET C, 1). -/
theorem test_ifu_holds : vector 0 [0x7c17, 0x7fff, 0x8821, 0x8841] (·.setReg .a 0x8000)
    (·.setPc 0x0002) = true := by decide

/-- The condition fails (V118, IFU A, lit 0x8000; SET B, 1; SET C, 1). -/
theorem test_ifu_skips : vector 0 [0x7c17, 0x8000, 0x8821, 0x8841] (·.setReg .a 0x7FFF)
    (·.setPc 0x0003) = true := by decide

/-! ## Skip chains -/

/-- A skipped conditional skips on, each by its own length (V121, IFE A, 1; IFE A, 0; SET [A + 0x1000], lit 0x1234; SET B, 2). -/
theorem test_skip_chain_over_conditional : vector 0 [0x8812, 0x8412, 0x7e01, 0x1234, 0x1000, 0x8c21] id
    (·.setPc 0x0005) = true := by decide

/-- The operands of the failing conditional keep their effects (V124, IFE PUSH, 1). -/
theorem test_skip_keeps_operand_effects : vector 0 [0x8b12] id
    (·.setPc 0x0002 |>.setSp 0xFFFF) = true := by decide

/-! ## Operand classes -/

/-- A word a register addresses (V129, SET [B], 5). -/
theorem test_reg_pointer_destination : vector 0 [0x9921] (·.setReg .b 0x2000)
    (·.setPc 0x0001 |>.writeMem 0x2000 0x0005) = true := by decide

/-- The address wraps (V132, SET A, [B + 0x20]). -/
theorem test_reg_next_word_wraps : vector 0 [0x4401, 0x0020] (·.setReg .b 0xFFF0 |>.writeMem 0x0010 0x4321)
    (·.setReg .a 0x4321 |>.setPc 0x0002) = true := by decide

/-- POP wraps SP (V134, SET A, POP). -/
theorem test_pop_wraps : vector 0 [0x6001] (·.setSp 0xFFFF |>.writeMem 0xFFFF 0x0099)
    (·.setReg .a 0x0099 |>.setPc 0x0001 |>.setSp 0x0000) = true := by decide

/-- `a` is read before PUSH moves SP (V136, SET PUSH, SP). -/
theorem test_push_sp_stores_old_sp : vector 0 [0x6f01] (·.setSp 0x1000)
    (·.setPc 0x0001 |>.setSp 0x0FFF |>.writeMem 0x0FFF 0x1000) = true := by decide

/-- `b` is resolved after the POP of `a` (V137, SET PEEK, POP). -/
theorem test_peek_after_pop : vector 0 [0x6321] (·.setSp 0x1000 |>.writeMem 0x1000 0x0001 |>.writeMem 0x1001 0x0002)
    (·.setPc 0x0001 |>.setSp 0x1001 |>.writeMem 0x1001 0x0001) = true := by decide

/-- SP plus the next word (V139, SET A, PICK 1). -/
theorem test_pick : vector 0 [0x6801, 0x0001] (·.setSp 0x1000 |>.writeMem 0x1001 0x0066)
    (·.setReg .a 0x0066 |>.setPc 0x0002) = true := by decide

/-- SP itself (V141, SET SP, lit 0x8000). -/
theorem test_set_sp : vector 0 [0x7f61, 0x8000] id
    (·.setPc 0x0002 |>.setSp 0x8000) = true := by decide

/-- PC is read before the next word of `b` is consumed (V144, SET [0x2000], PC). -/
theorem test_pc_before_next_word_of_b : vector 0x0100 [0x73c1, 0x2000] id
    (·.setPc 0x0102 |>.writeMem 0x2000 0x0101) = true := by decide

/-- A write to PC is a jump (V146, ADD PC, 1). -/
theorem test_add_to_pc : vector 0x0100 [0x8b82] id
    (·.setPc 0x0102) = true := by decide

/-- The first next word is `a`'s (V148, SET [0x2000], [0x3000]). -/
theorem test_two_next_words : vector 0 [0x7bc1, 0x3000, 0x2000] (·.writeMem 0x3000 0x00CD)
    (·.setPc 0x0003 |>.writeMem 0x2000 0x00CD) = true := by decide

/-- The next word and PC wrap (V153, ADD [0xFFFF], 1). -/
theorem test_next_word_at_top : vector 0xFFFE [0x8bc2, 0xffff] (·.writeMem 0xFFFF 0xFFFF)
    (·.setPc 0x0000 |>.setEx 0x0001 |>.writeMem 0xFFFF 0x0000) = true := by decide

/-- EX as an operand (V147, SET A, EX). -/
theorem test_read_ex : vector 0 [0x7401] (·.setEx 0x00AB)
    (·.setReg .a 0x00AB |>.setPc 0x0001) = true := by decide

/-! ## Special instructions -/

/-- The return address is past the next word (V157, JSR lit 0x0100). -/
theorem test_jsr_return_address : vector 0x0010 [0x7c20, 0x0100] id
    (·.setPc 0x0100 |>.setSp 0xFFFF |>.writeMem 0xFFFF 0x0012) = true := by decide

/-- The push follows the POP of the operand (V159, JSR POP). -/
theorem test_jsr_pop : vector 0 [0x6020] (·.setSp 0x1000 |>.writeMem 0x1000 0x0300)
    (·.setPc 0x0300 |>.writeMem 0x1000 0x0001) = true := by decide

/-- The message is queued (V161, INT 5). -/
theorem test_int_enqueues : vector 0 [0x9900] id
    (·.setPc 0x0001 |>.setQueue [0x0005]) = true := by decide

/-- The message is queued at the tail also while dispatch is disabled (V162, INT lit 0x1234). -/
theorem test_int_while_disabled : vector 0 [0x7d00, 0x1234] (·.setIqe false |>.setQueue [0x0007])
    (·.setPc 0x0002 |>.setQueue [0x0007, 0x1234]) = true := by decide

/-- IA is read (V163, IAG A). -/
theorem test_iag : vector 0 [0x0120] (·.setIa 0x0200)
    (·.setReg .a 0x0200 |>.setPc 0x0001) = true := by decide

/-- IA is written through the location POP names (V164, IAG POP). -/
theorem test_iag_pop : vector 0 [0x6120] (·.setIa 0x0200 |>.setSp 0x1000)
    (·.setPc 0x0001 |>.setSp 0x1001 |>.writeMem 0x1000 0x0200) = true := by decide

/-- IA is written (V165, IAS lit 0x0200). -/
theorem test_ias : vector 0 [0x7d40, 0x0200] id
    (·.setPc 0x0002 |>.setIa 0x0200) = true := by decide

/-- A, then PC, are popped and dispatch is enabled (V167, RFI 0). -/
theorem test_rfi : vector 0 [0x8560] (·.setSp 0xFFFE |>.writeMem 0xFFFE 0x1234 |>.writeMem 0xFFFF 0x0042 |>.setIqe false)
    (·.setReg .a 0x1234 |>.setPc 0x0042 |>.setSp 0x0000 |>.setIqe true) = true := by decide

/-- The operand has its own effect first (V168, RFI POP). -/
theorem test_rfi_pop : vector 0 [0x6160] (·.setSp 0xFFFD |>.writeMem 0xFFFE 0x1234 |>.writeMem 0xFFFF 0x0042 |>.setIqe false)
    (·.setReg .a 0x1234 |>.setPc 0x0042 |>.setSp 0x0000 |>.setIqe true) = true := by decide

/-- A non-zero value disables dispatch (V169, IAQ 1). -/
theorem test_iaq_disables : vector 0 [0x8980] id
    (·.setPc 0x0001 |>.setIqe false) = true := by decide

/-- Zero enables dispatch (V170, IAQ 0). -/
theorem test_iaq_enables : vector 0 [0x8580] (·.setIqe false)
    (·.setPc 0x0001 |>.setIqe true) = true := by decide

/-! ## Faults -/

/-- A faulting step keeps no effect of its operands (V180, SET lit 5, POP). -/
theorem test_write_to_literal : vector 0 [0x63e1, 0x0005] (·.setSp 0x1000)
    (·.haltWith (fatal .invalidWriteTarget 0x0000 0x63E1)) = true := by decide

/-- IAG through an inline literal (V181, IAG 3). -/
theorem test_iag_inline_literal : vector 0 [0x9120] (·.setIa 0x0200)
    (·.haltWith (fatal .invalidWriteTarget 0x0000 0x9120)) = true := by decide

/-- A conditional writes nothing, so a literal `b` is no fault (V186, IFE lit 5, 5). -/
theorem test_conditional_on_literal : vector 0 [0x9bf2, 0x0005] id
    (·.setPc 0x0002) = true := by decide

/-- The zero word is no instruction (V187). -/
theorem test_zero_word_is_invalid : vector 0 [0x0000] id
    (·.haltWith (fatal .invalidOpcode 0x0000 0x0000)) = true := by decide

/-- An invalid word resolves no operand (V197). -/
theorem test_invalid_special_keeps_sp : vector 0 [0x6260] (·.setSp 0x1000)
    (·.haltWith (fatal .invalidOpcode 0x0000 0x6260)) = true := by decide

/-! ## Dispatch -/

/-- The handler runs in the same step (V199, SET B, 1). -/
theorem test_dispatch_enters_handler : vector 0 [0x8821] (·.setReg .a 0x0055 |>.setIa 0x0010 |>.setQueue [0x0007] |>.writeMem 0x0010 0x0041)
    (·.setReg .a 0x0007 |>.setReg .c 0x0007 |>.setPc 0x0011 |>.setSp 0xFFFE |>.writeMem 0xFFFE 0x0055 |>.setQueue [] |>.setIqe false) = true := by decide

/-- With IA = 0 the message is discarded (V200, SET B, 1). -/
theorem test_dispatch_discards : vector 0 [0x8821] (·.setIa 0x0000 |>.setQueue [0x0007])
    (·.setReg .b 0x0001 |>.setPc 0x0001 |>.setQueue []) = true := by decide

/-- With IQE = 0 the message waits (V201, SET B, 1). -/
theorem test_dispatch_disabled : vector 0 [0x8821] (·.setIa 0x0010 |>.setQueue [0x0007] |>.setIqe false)
    (·.setReg .b 0x0001 |>.setPc 0x0001) = true := by decide

/-- A fault in the handler leaves the state before the dispatch (V205, SET B, 1). -/
theorem test_fault_undoes_dispatch : vector 0 [0x8821] (·.setIa 0x0010 |>.setQueue [0x0007] |>.setSp 0x0000 |>.writeMem 0x0010 0x0000)
    (·.haltWith (fatal .invalidOpcode 0x0010 0x0000)) = true := by decide
/-! ## The hardware bus -/

/-- HWN writes the number of devices, whatever it is (46_special.md R167). -/
theorem test_hwn : (after (prog 0 [0x0200])).map (fun t => t.getReg .a) = some Config.hwDeviceCount := rfl

/-- HWN through an inline literal faults (V183). -/
theorem test_hwn_inline_literal : vector 0 [0x8600] id (·.haltWith (fatal .invalidWriteTarget 0 0x8600)) = true := by
  decide

/-- The words HWQ answers for the spec's device 0 (V175). -/
theorem test_hwq_words :
    deviceWords { id := 0x7349F615, version := 0x1802, manufacturer := 0x1C6C8B36 } =
      { b := 0xF615, c := 0x7349, x := 0x1802, y := 0x8B36, z := 0x1C6C } := by decide

/-- A device's answer changes general registers and memory (46_special.md R173). -/
theorem test_hwi_answer :
    State.reset.applyAnswer { regs := [(.b, 7), (.b, 9)], words := [(0x1000, 3)] } =
      (State.reset.setReg .b 9).writeMem 0x1000 3 := by decide

/-! ## The queue's capacity, halting, and the host's actions -/

set_option maxRecDepth 4000 in
/-- The last free place of Q (V185). -/
theorem test_int_fills_queue :
    vector 0 [0x8900] (fun s => (s.setQueue (List.replicate 255 0)).setIqe false)
      (fun s => (s.setQueue (List.replicate 255 0 ++ [1])).setPc 1) = true := by decide

set_option maxRecDepth 4000 in
/-- A full Q (V184). -/
theorem test_int_overflows :
    vector 0 [0x8900] (fun s => (s.setQueue (List.replicate 256 0)).setIqe false)
      (·.haltWith (fatal .interruptQueueOverflow 0 0x8900)) = true := by decide

/-- A halted core's step reports its fault again (V198). -/
theorem test_halted_step :
    step (State.reset.haltWith (fatal .invalidOpcode 0 0)) = .fault (.fatal (fatal .invalidOpcode 0 0)) := rfl

set_option maxRecDepth 4000 in
/-- A host delivery (V206), and one to a full Q (V207). -/
theorem test_deliver_interrupt :
    State.reset.deliverInterrupt 9 = State.reset.setQueue [9] ∧
    (State.reset.setQueue (List.replicate 256 0)).deliverInterrupt 9 =
      (State.reset.setQueue (List.replicate 256 0)).haltWith
        { kind := .interruptQueueOverflow, pc := 0, word := none } := by decide

/-- An image file's words are little-endian (70_reset_and_hazards.md R217). -/
theorem test_image_of_bytes :
    imageOfBytes [0x01, 0x7c, 0x30, 0x00] = some [0x7c01, 0x0030] ∧ imageOfBytes [0x01] = none := by decide

/-- The source's first program, loaded and run for one step (W1). -/
theorem test_set_program : after (State.reset.setProgram [0x7c01, 0x0030]) =
    some (((State.reset.setProgram [0x7c01, 0x0030]).setReg .a 0x30).setPc 2) := by decide

/-- `withFetchWord` places the instruction the next step runs: from reset, where the core is halted, and where the next
step would first enter a handler whose pushes reach the words. -/
theorem test_with_fetch_word :
    (after (State.reset.withFetchWord 16 0x8c21)).map (fun t => t.getReg .b) = some 2 ∧
    (after ((State.reset.haltWith (fatal .invalidOpcode 0 0)).withFetchWord 16 0x8c21)).map (fun t => t.getReg .b) =
      some 2 ∧
    (after ((((State.reset.setQueue [7]).setIa 0x10).setSp 0x12).withFetchWord 16 0x8c21)).map (fun t => t.getReg .b) =
      some 2 := by decide

/-! ## Witnesses: concrete states and operands that meet the hypotheses of each statement, clause by clause -/

theorem witness_DecodeOfEncodeIsTheInstruction : (Instr.std .pick (.inlineLiteral 30)).wf = true := by decide

theorem witness_DecodedWordIsItsEncoding : decode 0x8001 = .ok (.set (.reg .a) (.inlineLiteral 0xFFFF)) := by decide

/-- The ends of the inline selectors (30_encoding.md R60). -/
theorem witness_ExampleWordsDecode :
    0x20 ≤ (0x20 : BitVec 6).toNat ∧ decodeSelector 0x20 = .inlineLiteral 0xFFFF ∧
    0x20 ≤ (0x3F : BitVec 6).toNat ∧ decodeSelector 0x3F = .inlineLiteral 30 := by decide

theorem witness_EncodedWordsFillTheLength :
    (Instr.set .nextWordPointer .nextWordLiteral).wf = true ∧ (Instr.hwi (.reg .a)).wf = true := by decide

/-- Words all of which are IFN A, A, whose condition always fails. -/
def AllIfn (s : State) : Prop := s.halt = none ∧ s.queue = [] ∧ ∀ k, s.readMem k = 0x0013

/-- The state with memory full of them. -/
def endlessChain : State := State.reset.setProgram (List.replicate 65536 0x0013)

theorem endlessChain_allIfn : AllIfn endlessChain := by
  refine ⟨rfl, rfl, fun k => ?_⟩
  have hk := k.isLt
  refine (Memory.ofImage_read (image := List.replicate 65536 0x0013) (n := 0) (k := k.toNat) (by omega)
    (by rw [List.length_replicate])).trans ?_
  rw [List.getD_eq_getElem _ _ (by rw [List.length_replicate]; omega), List.getElem_replicate]

theorem AllIfn.conditional {s : State} (h : AllIfn s) (k : Word) : isConditional (Memory.read s.mem k.toNat) = true :=
  (congrArg isConditional (h.2.2 k)).trans (by decide)

theorem AllIfn.skipChain {s : State} (h : AllIfn s) (fuel : Nat) (k : Word) : skipChain s.mem fuel k = none := by
  induction fuel generalizing k with
  | zero => rfl
  | succ n ih => rw [Machine.skipChain]; simp only [h.conditional, if_true, ih]

theorem AllIfn.skipsTo {s : State} (h : AllIfn s) (k p : Word) : ¬SkipsTo s.mem k p := fun hk => by
  induction hk with
  | last pc hc => rw [h.conditional] at hc; cases hc
  | more pc p _ _ ih => exact ih

theorem AllIfn.takeInterrupt {s : State} (h : AllIfn s) : s.takeInterrupt = s := by
  unfold State.takeInterrupt; rw [h.2.1]; cases s.iqe <;> rfl

theorem AllIfn.decode {s : State} (h : AllIfn s) (k : Word) : decode (s.readMem k) = .ok (.ifn (.reg .a) (.reg .a)) :=
  (congrArg Sys2Proof.decode (h.2.2 k)).trans (by decide)

theorem AllIfn.exec {s : State} (h : AllIfn s) (pc : Word) :
    exec (.ifn (.reg .a) (.reg .a)) (s.setPc pc) = .fault .skipChainNeverEnds := by
  have hc : ifnHolds ((s.setPc pc).getReg .a) ((s.setPc pc).getReg .a) = false := by simp [ifnHolds]
  show (if ifnHolds ((s.setPc pc).getReg .a) ((s.setPc pc).getReg .a) = true then Host.Outcome.next (s.setPc pc)
    else match Machine.skipChain s.mem memorySize pc with
      | some p => .next ((s.setPc pc).setPc p)
      | none => .fault Fault.skipChainNeverEnds) = _
  rw [hc, h.skipChain]; rfl

theorem AllIfn.step {s : State} (h : AllIfn s) : step s = .fault .skipChainNeverEnds := by
  rw [step_running h.1, h.takeInterrupt, runInstruction]
  show settle s (match Sys2Proof.decode (s.readMem s.pc) with
    | .ok i => Machine.exec i (s.setPc (s.pc + 1))
    | .error _ => _) = _
  rw [h.decode]
  simp only [h.exec, settle]

/-- The three clauses: a next state, a fatal fault, an endless skip chain. -/
theorem witness_StepRunsTheDecodedInstruction :
    (State.reset.setProgram [0x8801]).halt = none ∧
    decode ((prog 0 [0x8801]).takeInterrupt.readMem 0) = .ok (.set (.reg .a) (.inlineLiteral 1)) ∧
    (∃ t, exec (.set (.reg .a) (.inlineLiteral 1)) ((prog 0 [0x8801]).takeInterrupt.setPc 1) = .next t) ∧
    decode ((prog 0 [0x9120]).takeInterrupt.readMem 0) = .ok (.iag (.inlineLiteral 3)) ∧
    exec (.iag (.inlineLiteral 3)) ((prog 0 [0x9120]).takeInterrupt.setPc 1) =
      .fault (.fatal (fatal .invalidWriteTarget 0 0x9120)) ∧
    ∃ s : State, s.halt = none ∧ decode (s.takeInterrupt.readMem s.takeInterrupt.pc) = .ok (.ifn (.reg .a) (.reg .a)) ∧
      exec (.ifn (.reg .a) (.reg .a)) (s.takeInterrupt.setPc (s.takeInterrupt.pc + 1)) = .fault .skipChainNeverEnds :=
  ⟨rfl, by decide, ⟨_, rfl⟩, by decide, rfl, endlessChain, rfl,
    by rw [endlessChain_allIfn.takeInterrupt]; exact endlessChain_allIfn.decode _,
    by rw [endlessChain_allIfn.takeInterrupt]; exact endlessChain_allIfn.exec _⟩

theorem witness_InvalidWordHaltsTheCore :
    State.reset.halt = none ∧
    decode (State.reset.takeInterrupt.readMem State.reset.takeInterrupt.pc) = .error (.unassignedSpecial 0) := by decide

theorem witness_FaultingStepChangesOnlyHalt :
    step State.reset = .next (State.reset.haltWith (fatal .invalidOpcode 0 0)) ∧
    (State.reset.haltWith (fatal .invalidOpcode 0 0)).halt = some (fatal .invalidOpcode 0 0) := ⟨rfl, rfl⟩

/-- Both outcomes happen: a next state, and a stuck step. -/
theorem witness_StepCompletesUnlessSkipChainIsEndless :
    State.reset.halt = none ∧ (∃ t, step State.reset = .next t) ∧
    ∃ s : State, s.halt = none ∧ step s = .fault .skipChainNeverEnds :=
  ⟨rfl, ⟨_, rfl⟩, endlessChain, rfl, endlessChain_allIfn.step⟩

theorem witness_OnlyResetClearsHalt :
    (State.reset.haltWith (fatal .invalidOpcode 0 0)).halt = some (fatal .invalidOpcode 0 0) ∧
    HostAction.setProgram [1] ≠ .reset ∧
    ∃ t, hostAct (.setProgram [1]) (State.reset.haltWith (fatal .invalidOpcode 0 0)) = .next t := by
  refine ⟨rfl, by decide, _, rfl⟩

theorem witness_SafeRunsArePrefixClosed : SafeRun (1 + 1) (prog 0 [0x8801, 0x8c21]) :=
  ⟨((prog 0 [0x8801, 0x8c21]).setReg .a 1).setReg .b 2 |>.setPc 2, rfl, rfl⟩

theorem witness_PcEndsPastTheInstruction :
    (Instr.set .nextWordPointer .nextWordPointer).wf = true ∧
    isConditional (encode (.set .nextWordPointer .nextWordPointer)) = false ∧
    destination (.set .nextWordPointer .nextWordPointer) ≠ some .pc ∧
    (∀ a, Instr.set .nextWordPointer .nextWordPointer ≠ .jsr a ∧ Instr.set .nextWordPointer .nextWordPointer ≠ .rfi a) ∧
    ∃ t, exec (.set .nextWordPointer .nextWordPointer) ((prog 0 [0x7bc1, 0x3000, 0x2000]).setPc 1) = .next t := by
  refine ⟨by decide, by decide, by decide, fun a => ⟨?_, ?_⟩, _, rfl⟩ <;> intro h <;> cases h

theorem witness_SourceIsResolvedBeforeDestination :
    Memory.wf ((State.reset.writeWords 1 [0x3000, 0x2000]).writeMem 0x3000 0xCD).mem = true := by decide

theorem witness_SetCopiesItsSource :
    Memory.wf (State.reset.writeMem 0x1000 5).mem = true ∧ writable (.reg .a) = true ∧ Operand.reg .a ≠ .ex ∧
    writable .nextWordLiteral = false := by decide

theorem witness_AddWritesSumAndCarry :
    Memory.wf State.reset.mem = true ∧ writable .pushPop = true ∧ writable .nextWordLiteral = false := by decide

theorem witness_SubWritesDifferenceAndBorrow :
    Memory.wf State.reset.mem = true ∧ writable .peek = true ∧ writable (.inlineLiteral 0) = false := by decide

theorem witness_MulWritesLowAndHighWord :
    Memory.wf State.reset.mem = true ∧ writable .pick = true ∧ writable .nextWordLiteral = false := by decide

theorem witness_MliWritesSignedProduct : Memory.wf State.reset.mem = true ∧ writable .sp = true := by decide

/-- Both branches on the divisor: reset reads 0 from A; an inline 2 is not 0. -/
theorem witness_DivWritesQuotientAndFraction :
    Memory.wf State.reset.mem = true ∧ writable .ex = true ∧ writable .nextWordLiteral = false ∧
    (resolveBoth .ex (.reg .a) State.reset).a = 0 ∧ (resolveBoth .ex (.inlineLiteral 2) State.reset).a ≠ 0 := by decide

theorem witness_DviWritesSignedQuotientAndFraction : Memory.wf State.reset.mem = true ∧ writable .pc = true := by decide

theorem witness_ModWritesRemainder :
    Memory.wf State.reset.mem = true ∧ writable (.reg .b) = true ∧ writable .nextWordLiteral = false ∧
    (resolveBoth (.reg .b) (.reg .a) State.reset).a = 0 := by decide

theorem witness_MdiWritesSignedRemainder : Memory.wf State.reset.mem = true ∧ writable .nextWordPointer = true := by
  decide

theorem witness_AndBorXorWriteBitwiseResults :
    Memory.wf State.reset.mem = true ∧ writable (.reg .c) = true ∧ writable .nextWordLiteral = false ∧
    ∀ b a, (Instr.and b a, and) ∈ [(Instr.and b a, and), (Instr.bor b a, or), (Instr.xor b a, xor)] :=
  ⟨rfl, rfl, rfl, fun b a => by simp⟩

theorem witness_RightShiftsWriteShiftAndBitsOut :
    Memory.wf State.reset.mem = true ∧ writable (.reg .a) = true ∧
    ∀ b a s, (Instr.asr b a, (resolveBoth b a s).b.sshiftRight (resolveBoth b a s).a.toNat) ∈
      [(Instr.shr b a, (resolveBoth b a s).b >>> (resolveBoth b a s).a.toNat),
       (Instr.asr b a, (resolveBoth b a s).b.sshiftRight (resolveBoth b a s).a.toNat)] :=
  ⟨rfl, rfl, fun b a s => by simp⟩

theorem witness_ShlWritesShiftAndBitsOut : Memory.wf State.reset.mem = true ∧ writable (.regPointer .j) = true := by decide

theorem witness_AdxAddsTheCarry : Memory.wf (State.reset.setEx 1).mem = true ∧ writable (.reg .a) = true := by decide

theorem witness_SbxAddsTheBorrow : Memory.wf (State.reset.setEx 0xFFFF).mem = true ∧ writable (.reg .a) = true := by decide

theorem witness_IndexTransfersCopyThenStep :
    Memory.wf State.reset.mem = true ∧ writable (.reg .i) = true ∧ writable (.reg .a) = true ∧
    writable .nextWordLiteral = false ∧
    ((Instr.std (.reg .i) (.reg .j), -1) : Instr × Word) ∈
      [(Instr.sti (.reg .i) (.reg .j), 1), (Instr.std (.reg .i) (.reg .j), -1)] := by decide

theorem witness_AddThenSubRestores :
    (∃ v, Operand.inlineLiteral 7 = .inlineLiteral v) ∧ ∃ q, Operand.reg .b = .reg q ∧ q ≠ .a :=
  ⟨⟨_, rfl⟩, _, rfl, by decide⟩

/-- The pair may be added to itself, but for its high word into its low word. -/
theorem witness_AddThenAdxAddsPairs : Reg.a ≠ Reg.b ∧ Reg.b ≠ Reg.a ∧ Reg.x ≠ Reg.a := by decide

/-- The three clauses, for IFN A, A and IFE A, A: the condition holds; it fails and the chain ends; it fails and the chain
never ends. -/
theorem witness_ConditionalsExecuteOrSkip :
    (resolveBoth (.reg .a) (.reg .a) State.reset).b = (resolveBoth (.reg .a) (.reg .a) State.reset).a ∧
    ¬(resolveBoth (.reg .a) (.reg .a) State.reset).b ≠ (resolveBoth (.reg .a) (.reg .a) State.reset).a ∧
    SkipsTo State.reset.mem (resolveBoth (.reg .a) (.reg .a) State.reset).state.pc 1 ∧
    ∃ s : State, ∀ p, ¬SkipsTo s.mem (resolveBoth (.reg .a) (.reg .a) s).state.pc p :=
  ⟨rfl, by decide, SkipsTo.last 0 (by decide), endlessChain, endlessChain_allIfn.skipsTo _⟩

/-- A chain of two: IFE A, 0 is skipped, and so is SET B, 1 after it. -/
theorem witness_SkipChainBoundIsExact :
    skipChain (prog 0 [0x8412, 0x8821]).mem memorySize 0 = some 2 ∧ SkipsTo (prog 0 [0x8412, 0x8821]).mem 0 2 :=
  ⟨rfl, SkipsTo.more 0 2 (by decide) (SkipsTo.last 1 (by decide))⟩

theorem witness_JsrPushesTheReturnAddress :
    Memory.wf State.reset.mem = true ∧ Operand.nextWordLiteral.wfAs .a = true ∧
    (Operand.inlineLiteral 0xFFFF).wfAs .a = true := by decide

set_option maxRecDepth 4000 in
/-- The last length with room, and the full queue. -/
theorem witness_IntQueuesItsMessage :
    (State.reset.setQueue (List.replicate 255 0)).queue.length < 256 ∧
    256 ≤ (State.reset.setQueue (List.replicate 256 0)).queue.length := by decide

/-- IAS of 0, which turns dispatch into discarding. -/
theorem witness_IasSetsIa :
    (resolveSource (.inlineLiteral 0) State.reset).val = 0 ∧
    State.reset.ia = (resolveSource (.inlineLiteral 0) State.reset).val := by decide

theorem witness_IagAndHwnWriteTheirOperand :
    Memory.wf State.reset.mem = true ∧ writable (.reg .a) = true ∧ writable (.inlineLiteral 3) = false ∧
    ∀ a (s : State), (Instr.hwn a, Config.hwDeviceCount) ∈ [(Instr.iag a, s.ia), (Instr.hwn a, Config.hwDeviceCount)] :=
  ⟨rfl, rfl, rfl, fun a s => by simp⟩

theorem witness_HwqFillsItsFiveRegisters : Reg.a ∉ [Reg.b, Reg.c, Reg.x, Reg.y, Reg.z] := by decide

/-- Canonical memory, and an answer that writes one register and one word twice. -/
theorem witness_HwiIsBoundedByTheBus :
    Memory.wf State.reset.mem = true ∧
    lastWritten [(Reg.b, (7 : Word)), (.c, 1), (.b, 9)] .b 0 = 9 ∧
    lastWritten [((0x1000 : Word), (3 : Word)), (0x1000, 4)] 0x1001 5 = 5 := by decide

theorem witness_InterruptEntrySavesPcAndA :
    let s := (State.reset.setQueue [7, 8]).setIa 0x10
    Memory.wf s.mem = true ∧ s.iqe = true ∧ s.queue = [7, 8] ∧ s.ia ≠ 0 ∧ (0x1000 : Word) ≠ s.sp - 1 ∧
    (0x1000 : Word) ≠ s.sp - 2 := by decide

theorem witness_MessagesWaitOrAreDiscarded :
    (State.reset.setIqe false).iqe = false ∧ (State.reset.setQueue [7]).iqe = true ∧
    (State.reset.setQueue [7]).ia = 0 := by decide

theorem witness_RfiUndoesInterruptEntry : Memory.wf (State.reset.writeMem 0xFFFE 9).mem = true := by decide

set_option maxRecDepth 4000 in
theorem witness_DeliveryEnqueuesOrHalts :
    (State.reset.haltWith (fatal .invalidOpcode 0 0)).halt ≠ none ∧
    (State.reset.setQueue (List.replicate 255 0)).halt = none ∧
    (State.reset.setQueue (List.replicate 255 0)).queue.length < 256 ∧
    (State.reset.setQueue (List.replicate 256 0)).halt = none ∧
    256 ≤ (State.reset.setQueue (List.replicate 256 0)).queue.length := by decide

/-- An image that fills memory, and one a word too long. -/
theorem witness_SetProgramLoadsTheImage :
    (List.replicate 65536 (0x0001 : Word)).length ≤ 65536 ∧ 65536 < (List.replicate 65537 (0x0001 : Word)).length :=
  ⟨by rw [List.length_replicate], by rw [List.length_replicate]; omega⟩

theorem witness_PlainWritersFrame :
    Instr.xor .pushPop (.reg .a) ∈ plainWriters .pushPop (.reg .a) ∧
    ∃ t, exec (.xor .pushPop (.reg .a)) State.reset = .next t :=
  ⟨by decide, _, rfl⟩

theorem witness_ExWritersFrame :
    Instr.sbx (.regPointer .b) .pushPop ∈ exWriters (.regPointer .b) .pushPop ∧
    ∃ t, exec (.sbx (.regPointer .b) .pushPop) State.reset = .next t :=
  ⟨by decide, _, rfl⟩

theorem witness_IndexTransfersFrame :
    Instr.std .sp .peek ∈ [Instr.sti .sp .peek, Instr.std .sp .peek] ∧ ∃ t, exec (.std .sp .peek) State.reset = .next t :=
  ⟨by decide, _, rfl⟩

theorem witness_ConditionalsFrame :
    Instr.ifu .pushPop .pushPop ∈ conditionals .pushPop .pushPop ∧
    ∃ t, exec (.ifu .pushPop .pushPop) State.reset = .next t :=
  ⟨by decide, _, rfl⟩

theorem witness_InterruptControlFrame :
    Instr.iaq .pushPop ∈ [Instr.int .pushPop, Instr.ias .pushPop, Instr.iaq .pushPop] ∧
    (∃ t, exec (.int .pushPop) State.reset = .next t) ∧ (∃ t, exec (.ias .pushPop) State.reset = .next t) ∧
    ∃ t, exec (.iaq .pushPop) State.reset = .next t :=
  ⟨by decide, ⟨_, rfl⟩, ⟨_, rfl⟩, _, rfl⟩

theorem witness_SpecialWritersFrame :
    Instr.hwn .peek ∈ [Instr.iag .peek, Instr.hwn .peek] ∧ ∃ t, exec (.hwn .peek) State.reset = .next t :=
  ⟨by decide, _, rfl⟩

theorem witness_CallAndReturnFrame :
    (∃ t, exec (.jsr .pushPop) State.reset = .next t) ∧ ∃ t, exec (.rfi .pushPop) State.reset = .next t :=
  ⟨⟨_, rfl⟩, _, rfl⟩

/-- Each of the four writers does change its part. -/
theorem witness_InterruptStateHasFourWriters :
    (∃ t, exec (.ias (.inlineLiteral 5)) State.reset = .next t ∧ t.ia ≠ State.reset.ia) ∧
    (∃ t, exec (.int (.inlineLiteral 5)) State.reset = .next t ∧ t.queue ≠ State.reset.queue) ∧
    (∃ t, exec (.iaq (.inlineLiteral 5)) State.reset = .next t ∧ t.iqe ≠ State.reset.iqe) ∧
    ∃ t, exec (.rfi (.inlineLiteral 5)) (State.reset.setIqe false) = .next t ∧ t.iqe ≠ (State.reset.setIqe false).iqe :=
  ⟨⟨_, rfl, by decide⟩, ⟨_, rfl, by decide⟩, ⟨_, rfl, by decide⟩, _, rfl, by decide⟩

theorem witness_ExHasOnlyItsWriters :
    (∃ t, exec (.sub (.reg .a) (.inlineLiteral 1)) State.reset = .next t ∧ t.ex ≠ State.reset.ex) ∧
    ∃ t, exec (.set .ex (.inlineLiteral 1)) State.reset = .next t ∧ t.ex ≠ State.reset.ex :=
  ⟨⟨_, rfl, by decide⟩, _, rfl, by decide⟩

/-- The two sides are met together by a store through a literal. -/
theorem witness_InvalidWriteTargetExactlyAtLiterals :
    exec (.set .nextWordLiteral .sp) State.reset =
      .fault (.fatal (State.reset.faultBy .invalidWriteTarget (.set .nextWordLiteral .sp))) ∧
    writesLiteral (.set .nextWordLiteral .sp) = true := ⟨rfl, rfl⟩

/-- A state other than reset's that meets the invariant, and its step. -/
theorem witness_StepKeepsTheInvariant :
    State.Inv ((State.reset.writeMem 0 0x8801).setQueue [3]) ∧
    ∃ t, step ((State.reset.writeMem 0 0x8801).setQueue [3]) = .next t :=
  ⟨⟨by decide, by decide, fun r h => by cases h⟩, _, rfl⟩

/-- Each action answers a next state from a state that meets the invariant, and a halted state is reachable. -/
theorem witness_ReachableStatesMeetTheInvariant :
    State.Inv State.reset ∧ (∃ t, hostAct .reset State.reset = .next t) ∧
    (∃ t, hostAct (.setProgram [0x8801]) State.reset = .next t) ∧ (∃ t, hostAct .step State.reset = .next t) ∧
    (∃ t, hostAct (.deliverInterrupt 9) State.reset = .next t) ∧
    Reachable (State.reset.haltWith (fatal .invalidOpcode 0 0)) :=
  ⟨⟨by decide, by decide, fun r h => by cases h⟩, ⟨_, rfl⟩, ⟨_, rfl⟩, ⟨_, rfl⟩, ⟨_, rfl⟩,
    .act State.reset _ .step .reset rfl⟩

end Sys2Proof.Tests
end

/-! # What every instruction keeps: the frames of the instructions, and the invariant of the core's state

The instructions fall into a few families that share an execution template. Each family's equation for `exec` is
stated once; its frame, what it can do to the interrupt state and which faults it raises follow from that. -/

namespace Sys2Proof

/-! ## A word that decodes is the encoding of what it decodes to -/

theorem selector_decodeSelector : ∀ sel : BitVec 6, (decodeSelector sel).selector = sel := by decide

theorem decodeBasic_ok {op : BitVec 5} {b a : Operand} {i : Instr} (h : decodeBasic op b a = .ok i) :
    i.shape = .basic b a ∧ i.opcode = op := by
  unfold decodeBasic at h
  split at h <;> cases h <;> exact ⟨rfl, BitVec.eq_of_toNat_eq (Eq.symm ‹_›)⟩

theorem decodeSpecial_ok {o : BitVec 5} {a : Operand} {i : Instr} (h : decodeSpecial o a = .ok i) :
    i.shape = .special a ∧ i.opcode = o := by
  unfold decodeSpecial at h
  split at h <;> cases h <;> exact ⟨rfl, BitVec.eq_of_toNat_eq (Eq.symm ‹_›)⟩

theorem encode_of_decode {w : Word} {i : Instr} (h : decode w = .ok i) : encode i = w := by
  have hw := packWord_fields w
  unfold decode at h
  split at h
  · next hop =>
    obtain ⟨hshape, hcode⟩ := decodeSpecial_ok h
    simp only [encode, hshape, hcode, selector_decodeSelector]
    rwa [hop] at hw
  · obtain ⟨hshape, hcode⟩ := decodeBasic_ok h
    simp only [encode, hshape, hcode, selector_decodeSelector]
    simpa using hw

end Sys2Proof

namespace Sys2Proof.Machine

/-! ## The families of instructions -/

/-- The families of instructions that share a template or a part of the core (41_step.md R100, R101). -/
inductive InstrFamily : Instr → Prop where
  | plain {i : Instr} {b a : Operand} (h : i ∈ plainWriters b a) : InstrFamily i
  | flagged {i : Instr} {b a : Operand} (h : i ∈ exWriters b a) : InstrFamily i
  | index {i : Instr} {b a : Operand} (h : i ∈ [Instr.sti b a, Instr.std b a]) : InstrFamily i
  | conditional {i : Instr} {b a : Operand} (h : i ∈ conditionals b a) : InstrFamily i
  | specialWriter {i : Instr} {a : Operand} (h : i ∈ [Instr.iag a, Instr.hwn a]) : InstrFamily i
  | int (a : Operand) : InstrFamily (.int a)
  | ias (a : Operand) : InstrFamily (.ias a)
  | iaq (a : Operand) : InstrFamily (.iaq a)
  | jsr (a : Operand) : InstrFamily (.jsr a)
  | rfi (a : Operand) : InstrFamily (.rfi a)
  | hwq (a : Operand) : InstrFamily (.hwq a)
  | hwi (a : Operand) : InstrFamily (.hwi a)

theorem instrFamily (i : Instr) : InstrFamily i := by
  cases i with
  | set b a | mod b a | mdi b a | and b a | bor b a | xor b a =>
    exact .plain (b := b) (a := a) (by simp [plainWriters])
  | add b a | sub b a | mul b a | mli b a | div b a | dvi b a | shr b a | asr b a | shl b a | adx b a | sbx b a =>
    exact .flagged (b := b) (a := a) (by simp [exWriters])
  | sti b a | std b a => exact .index (b := b) (a := a) (by simp)
  | ifb b a | ifc b a | ife b a | ifn b a | ifg b a | ifa b a | ifl b a | ifu b a =>
    exact .conditional (b := b) (a := a) (by simp [conditionals])
  | iag a | hwn a => exact .specialWriter (a := a) (by simp)
  | int a => exact .int a
  | ias a => exact .ias a
  | iaq a => exact .iaq a
  | jsr a => exact .jsr a
  | rfi a => exact .rfi a
  | hwq a => exact .hwq a
  | hwi a => exact .hwi a

/-! ### The equation of each family -/

section
variable {b a : Operand} {i : Instr}

theorem exec_plainWriter (h : i ∈ plainWriters b a) (s : State) :
    ∃ v, exec i s = writeBack i s (resolveBoth b a s).bloc v (resolveBoth b a s).state id := by
  simp only [plainWriters, List.mem_cons, List.not_mem_nil, or_false] at h
  rcases h with rfl | rfl | rfl | rfl | rfl | rfl <;> exact ⟨_, rfl⟩

theorem exec_exWriter (h : i ∈ exWriters b a) (s : State) :
    ∃ v x, exec i s = writeBack i s (resolveBoth b a s).bloc v (resolveBoth b a s).state fun u => u.setEx x := by
  simp only [exWriters, List.mem_cons, List.not_mem_nil, or_false] at h
  rcases h with rfl | rfl | rfl | rfl | rfl | rfl | rfl | rfl | rfl | rfl | rfl <;> exact ⟨_, _, rfl⟩

theorem exec_indexTransfer (h : i ∈ [Instr.sti b a, Instr.std b a]) (s : State) :
    ∃ v d, exec i s = writeBack i s (resolveBoth b a s).bloc v (resolveBoth b a s).state (stepIndexRegs d) := by
  simp only [List.mem_cons, List.not_mem_nil, or_false] at h
  rcases h with rfl | rfl <;> exact ⟨_, _, rfl⟩

theorem exec_conditional (h : i ∈ conditionals b a) (s : State) : ∃ cond, exec i s = conditional b a cond s := by
  simp only [conditionals, List.mem_cons, List.not_mem_nil, or_false] at h
  rcases h with rfl | rfl | rfl | rfl | rfl | rfl | rfl | rfl <;> exact ⟨_, rfl⟩

theorem exec_specialWriter (h : i ∈ [Instr.iag a, Instr.hwn a]) (s : State) :
    ∃ v, exec i s = writeBack i s (resolveSource a s).loc v (resolveSource a s).state id := by
  simp only [List.mem_cons, List.not_mem_nil, or_false] at h
  rcases h with rfl | rfl <;> exact ⟨_, rfl⟩

/-! ### The operand each family writes -/

theorem destination_plainWriter : ∀ i ∈ plainWriters b a, destination i = some b := by
  simp [plainWriters, destination]

theorem destination_exWriter : ∀ i ∈ exWriters b a, destination i = some b := by
  simp [exWriters, destination]

theorem destination_indexTransfer : ∀ i ∈ [Instr.sti b a, Instr.std b a], destination i = some b := by
  simp [destination]

theorem destination_specialWriter : ∀ i ∈ [Instr.iag a, Instr.hwn a], destination i = some a := by
  simp [destination]

end

/-- Everything an INT can do: its message at the tail of the queue, or the overflow of a full one
(46_special.md R162). -/
theorem exec_int_cases (a : Operand) (s : State) :
    (s.queue.length < queueCapacity ∧ exec (.int a) s =
      .next ((resolveSource a s).state.setQueue (s.queue ++ [(resolveSource a s).val]))) ∨
    (queueCapacity ≤ s.queue.length ∧ exec (.int a) s =
      .fault (.fatal (s.faultBy .interruptQueueOverflow (.int a)))) := by
  rcases enqueue_cases (resolveSource a s).state (resolveSource a s).val with ⟨hq, he⟩ | ⟨hq, he⟩ <;>
    rw [resolveSource_queue] at hq
  · exact .inr ⟨hq, by simp only [exec, execInt, he]⟩
  · exact .inl ⟨hq, by simp only [exec, execInt, he, resolveSource_queue]⟩

/-! ## Frames -/

theorem spDelta_a (o : Operand) : spDelta o .a = if o = .pushPop then 1 else 0 := by
  cases o <;> rfl

theorem spDelta_b (o : Operand) : spDelta o .b = if o = .pushPop then 0xFFFF else 0 := by
  cases o <;> rfl

theorem resolveBoth_sp_eq (b a : Operand) (s : State) : (resolveBoth b a s).state.sp = spAfterOperands b a s := by
  rw [resolveBoth_sp, spDelta_a, spDelta_b, spAfterOperands, BitVec.sub_eq_add_neg]
  congr 1
  split <;> rfl

theorem resolveSource_sp_eq (a : Operand) (s : State) :
    (resolveSource a s).state.sp = if a = .pushPop then s.sp + 1 else s.sp := by
  rw [resolveSource_sp, spDelta_a]
  split
  · rfl
  · exact BitVec.add_zero _

/-- What an instruction that writes through operand `o` leaves alone, from the state before its operands: `sp` is SP
after them, `addr` the address the write stores to. -/
structure WriteFrame (o : Operand) (sp : Word) (addr : Option Word) (s t : State) : Prop where
  regs : ∀ r, o ≠ .reg r → t.getReg r = s.getReg r
  sp : o ≠ .sp → t.sp = sp
  ex : o ≠ .ex → t.ex = s.ex
  words : ∀ k, addr ≠ some k → t.readMem k = s.readMem k
  ia : t.ia = s.ia
  queue : t.queue = s.queue
  iqe : t.iqe = s.iqe
  halt : t.halt = s.halt
  hostDraws : t.hostDraws = s.hostDraws
  wf : Memory.wf s.mem = true → Memory.wf t.mem = true

/-- The frame of a write through a resolved operand, when resolving changed only PC and SP. -/
theorem Loc.Frame.toWriteFrame {o : Operand} {p : Position} {s0 s u : State} {n k : Word}
    (hs : (resolve o p s0).2 = (s.setPc n).setSp k) (h : (resolve o p s0).1.Frame (resolve o p s0).2 u) :
    WriteFrame o k (resolve o p s0).1.address s u := by
  rw [hs] at h
  exact ⟨fun r hr => h.regs r (mt (resolve_reg_iff o p s0 r).1 hr), fun hr => h.sp (mt (resolve_sp_iff o p s0).1 hr),
    fun hr => h.ex (mt (resolve_ex_iff o p s0).1 hr), h.words, h.ia, h.queue, h.iqe, h.halt, h.hostDraws, h.wf⟩

theorem writeFrame_both {b a : Operand} {s u : State} {v : Word}
    (h : (resolveBoth b a s).bloc.write v (resolveBoth b a s).state = some u) :
    WriteFrame b (spAfterOperands b a s) (storeAddress b a s) s u := by
  rw [← resolveBoth_sp_eq, resolveBoth_sp]
  exact (Loc.write_frame h).toWriteFrame (resolveBoth_state b a s)

theorem writeFrame_source {a : Operand} {s u : State} {v : Word}
    (h : (resolveSource a s).loc.write v (resolveSource a s).state = some u) :
    WriteFrame a (if a = .pushPop then s.sp + 1 else s.sp) (sourceStoreAddress a s) s u := by
  rw [← resolveSource_sp_eq, resolveSource_sp]
  exact (Loc.write_frame h).toWriteFrame (resolveSource_state a s)

section
variable {b a : Operand} {i : Instr} {s t : State}

theorem plainWriter_next (hi : i ∈ plainWriters b a) (h : exec i s = .next t) :
    WriteFrame b (spAfterOperands b a s) (storeAddress b a s) s t := by
  obtain ⟨v, he⟩ := exec_plainWriter hi s
  obtain ⟨u, hu, rfl⟩ := writeBack_next.1 (he.symm.trans h)
  exact writeFrame_both hu

theorem exWriter_next (hi : i ∈ exWriters b a) (h : exec i s = .next t) :
    ∃ u x, WriteFrame b (spAfterOperands b a s) (storeAddress b a s) s u ∧ t = u.setEx x := by
  obtain ⟨v, x, he⟩ := exec_exWriter hi s
  obtain ⟨u, hu, rfl⟩ := writeBack_next.1 (he.symm.trans h)
  exact ⟨u, x, writeFrame_both hu, rfl⟩

theorem indexTransfer_next (hi : i ∈ [Instr.sti b a, Instr.std b a]) (h : exec i s = .next t) :
    ∃ u d, WriteFrame b (spAfterOperands b a s) (storeAddress b a s) s u ∧ t = stepIndexRegs d u := by
  obtain ⟨v, d, he⟩ := exec_indexTransfer hi s
  obtain ⟨u, hu, rfl⟩ := writeBack_next.1 (he.symm.trans h)
  exact ⟨u, d, writeFrame_both hu, rfl⟩

theorem specialWriter_next (hi : i ∈ [Instr.iag a, Instr.hwn a]) (h : exec i s = .next t) :
    WriteFrame a (if a = .pushPop then s.sp + 1 else s.sp) (sourceStoreAddress a s) s t := by
  obtain ⟨v, he⟩ := exec_specialWriter hi s
  obtain ⟨u, hu, rfl⟩ := writeBack_next.1 (he.symm.trans h)
  exact writeFrame_source hu

theorem conditional_next (hi : i ∈ conditionals b a) (h : exec i s = .next t) :
    ∃ p, t = (resolveBoth b a s).state.setPc p := by
  obtain ⟨cond, he⟩ := exec_conditional hi s
  rcases conditional_cases (he.symm.trans h) with ⟨_, ht⟩ | ⟨_, ⟨p, _, ht⟩ | ⟨_, ht⟩⟩ <;> cases ht
  · exact ⟨_, rfl⟩
  · exact ⟨p, rfl⟩

theorem int_next (h : exec (.int a) s = .next t) :
    s.queue.length < queueCapacity ∧
      t = (resolveSource a s).state.setQueue (s.queue ++ [(resolveSource a s).val]) := by
  rcases exec_int_cases a s with ⟨hq, he⟩ | ⟨_, he⟩ <;> cases he.symm.trans h
  exact ⟨hq, rfl⟩

end

/-! ### The frame obligations -/

/-- Settles O48. -/
theorem plainWritersFrame : Obligations.PlainWritersFrame := fun _ _ _ _ _ hi h =>
  have F := plainWriter_next hi h
  ⟨F.regs, F.sp, F.ex, F.words, F.ia, F.queue, F.iqe, F.halt, F.hostDraws⟩

/-- Settles O49: the final write of EX touches nothing else. -/
theorem exWritersFrame : Obligations.ExWritersFrame := by
  intro b a i s t hi h
  obtain ⟨u, x, F, rfl⟩ := exWriter_next hi h
  exact ⟨F.regs, F.sp, F.words, F.ia, F.queue, F.iqe, F.halt, F.hostDraws⟩

/-- Settles O50: stepping I and J after the write touches nothing else. -/
theorem indexTransfersFrame : Obligations.IndexTransfersFrame := by
  intro b a i s t hi h
  obtain ⟨u, d, F, rfl⟩ := indexTransfer_next hi h
  refine ⟨fun r hr hI hJ => ?_, F.sp, F.ex, F.words, F.ia, F.queue, F.iqe, F.halt, F.hostDraws⟩
  rw [stepIndexRegs_getReg, if_neg (not_or.2 ⟨hI, hJ⟩), F.regs r hr]

/-- Settles O51: a conditional resolves its operands and moves PC. -/
theorem conditionalsFrame : Obligations.ConditionalsFrame := by
  intro b a i s t hi h
  obtain ⟨p, rfl⟩ := conditional_next hi h
  exact ⟨resolveBoth_getReg b a s, resolveBoth_sp_eq b a s, resolveBoth_ex b a s, resolveBoth_readMem b a s,
    resolveBoth_ia b a s, resolveBoth_queue b a s, resolveBoth_iqe b a s, resolveBoth_halt b a s,
    resolveBoth_hostDraws b a s⟩

/-- Settles O52: each sets its one part of the interrupt state after resolving its operand. -/
theorem interruptControlFrame : Obligations.InterruptControlFrame := by
  intro a i s t hi h
  have hregs := resolveSource_getReg a s
  have hsp := resolveSource_sp_eq a s
  have hwords := resolveSource_readMem a s
  simp only [List.mem_cons, List.not_mem_nil, or_false] at hi
  rcases hi with rfl | rfl | rfl
  · obtain ⟨_, rfl⟩ := int_next h
    exact ⟨hregs, hsp, resolveSource_ex a s, hwords, resolveSource_halt a s, resolveSource_hostDraws a s,
      fun hne => absurd rfl hne, fun _ => resolveSource_ia a s, fun _ => resolveSource_iqe a s⟩
  · cases h
    exact ⟨hregs, hsp, resolveSource_ex a s, hwords, resolveSource_halt a s, resolveSource_hostDraws a s,
      fun _ => resolveSource_queue a s, fun hne => absurd rfl hne, fun _ => resolveSource_iqe a s⟩
  · cases h
    exact ⟨hregs, hsp, resolveSource_ex a s, hwords, resolveSource_halt a s, resolveSource_hostDraws a s,
      fun _ => resolveSource_queue a s, fun _ => resolveSource_ia a s, fun hne => absurd rfl hne⟩

/-- Settles O53. -/
theorem specialWritersFrame : Obligations.SpecialWritersFrame := fun _ _ _ _ hi h =>
  have F := specialWriter_next hi h
  ⟨F.regs, F.sp, F.ex, F.words, F.ia, F.queue, F.iqe, F.halt, F.hostDraws⟩

/-- Settles O54: JSR is a push after its operand, RFI two pops. -/
theorem callAndReturnFrame : Obligations.CallAndReturnFrame := by
  refine fun a s t => ⟨fun h => ?_, fun h => ?_⟩
  · cases h
    exact ⟨resolveSource_getReg a s, resolveSource_ex a s,
      fun k hk => (push_readMem_other _ _ hk).trans (resolveSource_readMem a s k), resolveSource_ia a s,
      resolveSource_queue a s, resolveSource_iqe a s, resolveSource_halt a s, resolveSource_hostDraws a s⟩
  · cases h
    refine ⟨fun r hr => ?_, resolveSource_ex a s, resolveSource_readMem a s, resolveSource_ia a s,
      resolveSource_queue a s, resolveSource_halt a s, resolveSource_hostDraws a s⟩
    rw [returnFromInterrupt_getReg, if_neg hr, resolveSource_getReg]

/-! ## What every instruction keeps -/

/-- What an instruction can do to EX and the interrupt state, whichever it is; it keeps memory canonical and never
touches `halt`. -/
structure ExecFrame (i : Instr) (s t : State) : Prop where
  ex : t.ex = s.ex ∨ (∃ b a, i ∈ exWriters b a) ∨ destination i = some .ex
  ia : t.ia = s.ia ∨ ∃ a, i = .ias a
  queue : t.queue = s.queue ∨
    ((∃ a, i = .int a) ∧ s.queue.length < queueCapacity ∧ ∃ m, t.queue = s.queue ++ [m])
  iqe : t.iqe = s.iqe ∨ ∃ a, i = .iaq a ∨ i = .rfi a
  halt : t.halt = s.halt
  wf : Memory.wf s.mem = true → Memory.wf t.mem = true

/-- An instruction that changes nothing beyond the write of its destination. -/
theorem WriteFrame.toExecFrame {i : Instr} {o : Operand} {sp : Word} {addr : Option Word} {s t : State}
    (F : WriteFrame o sp addr s t) (hd : destination i = some o) : ExecFrame i s t where
  ex := by
    by_cases ho : o = .ex
    · exact .inr (.inr (ho ▸ hd))
    · exact .inl (F.ex ho)
  ia := .inl F.ia
  queue := .inl F.queue
  iqe := .inl F.iqe
  halt := F.halt
  wf := F.wf

/-- Resolving the operand of a special instruction is no more than PC and SP. -/
theorem resolveSource_execFrame (i : Instr) (a : Operand) (s : State) : ExecFrame i s (resolveSource a s).state where
  ex := .inl (resolveSource_ex a s)
  ia := .inl (resolveSource_ia a s)
  queue := .inl (resolveSource_queue a s)
  iqe := .inl (resolveSource_iqe a s)
  halt := resolveSource_halt a s
  wf hm := by rwa [resolveSource_mem]

theorem exec_frame {i : Instr} {s t : State} (h : exec i s = .next t) : ExecFrame i s t := by
  cases instrFamily i with
  | plain hi => exact (plainWriter_next hi h).toExecFrame (destination_plainWriter _ hi)
  | flagged hi =>
    obtain ⟨u, x, F, rfl⟩ := exWriter_next hi h
    exact { F.toExecFrame (destination_exWriter _ hi) with ex := .inr (.inl ⟨_, _, hi⟩) }
  | index hi =>
    obtain ⟨u, d, F, rfl⟩ := indexTransfer_next hi h
    exact { F.toExecFrame (destination_indexTransfer _ hi) with }
  | conditional hi =>
    obtain ⟨p, rfl⟩ := conditional_next hi h
    exact ⟨.inl (resolveBoth_ex _ _ s), .inl (resolveBoth_ia _ _ s), .inl (resolveBoth_queue _ _ s),
      .inl (resolveBoth_iqe _ _ s), resolveBoth_halt _ _ s, by simp⟩
  | specialWriter hi => exact (specialWriter_next hi h).toExecFrame (destination_specialWriter _ hi)
  | int a =>
    obtain ⟨hq, rfl⟩ := int_next h
    exact { resolveSource_execFrame _ a s with queue := .inr ⟨⟨a, rfl⟩, hq, _, rfl⟩ }
  | ias a =>
    cases h
    exact { resolveSource_execFrame _ a s with ia := .inr ⟨a, rfl⟩ }
  | iaq a =>
    cases h
    exact { resolveSource_execFrame _ a s with iqe := .inr ⟨a, .inl rfl⟩ }
  | jsr a =>
    cases h
    have F := resolveSource_execFrame (.jsr a) a s
    exact { F with wf := fun hm => push_wf _ _ (F.wf hm) }
  | rfi a =>
    cases h
    exact { resolveSource_execFrame _ a s with iqe := .inr ⟨a, .inr rfl⟩ }
  | hwq a =>
    cases h
    obtain ⟨q, hq | hq⟩ := hardwareQuery_eq (resolveSource a s).state (resolveSource a s).val <;> rw [hq]
    · exact { resolveSource_execFrame _ a s with }
    · exact { resolveSource_execFrame _ a s with }
  | hwi a =>
    cases h
    have F := resolveSource_execFrame (.hwi a) a s
    rcases hardwareInterrupt_cases (resolveSource a s).state (resolveSource a s).val with
      ⟨_, he⟩ | ⟨_, g, m, he, hm⟩ <;> rw [he]
    · exact F
    · exact { F with wf := hm ∘ F.wf }

/-- Settles O55. -/
theorem interruptStateHasFourWriters : Obligations.InterruptStateHasFourWriters := fun _ _ _ h =>
  have F := exec_frame h
  ⟨F.ia.resolve_left, fun hne => (F.queue.resolve_left hne).1, F.iqe.resolve_left, F.halt⟩

/-- Settles O56. -/
theorem exHasOnlyItsWriters : Obligations.ExHasOnlyItsWriters := fun _ _ _ h =>
  (exec_frame h).ex.resolve_left

/-! ## Which fatal faults an instruction raises -/

theorem writesLiteral_of_destination {i : Instr} {o : Operand} (hd : destination i = some o)
    (ho : writable o = false) : writesLiteral i = true := by
  simp [writesLiteral, hd, ho]

/-- A write-back through a resolved destination that faults is a write through a literal. -/
theorem writeBack_resolve_fatal {i : Instr} {o : Operand} {p : Position} {e s0 s : State} {v : Word}
    {rest : State → State} {f : FaultRecord} (hd : destination i = some o)
    (h : writeBack i e (resolve o p s0).1 v s rest = .fault (.fatal f)) :
    writesLiteral i = true ∧ f = e.faultBy .invalidWriteTarget i := by
  obtain ⟨hlit, hf⟩ := writeBack_fault.1 h
  cases hf
  exact ⟨writesLiteral_of_destination hd ((resolve_lit_iff o p s0).1 hlit), rfl⟩

/-- An instruction raises a fatal fault only by a write through a literal or as an INT with the queue full. -/
theorem exec_fatal {i : Instr} {s : State} {f : FaultRecord} (h : exec i s = .fault (.fatal f)) :
    (writesLiteral i = true ∧ f = s.faultBy .invalidWriteTarget i) ∨
    (∃ a, i = .int a ∧ queueCapacity ≤ s.queue.length ∧ f = s.faultBy .interruptQueueOverflow i) := by
  cases instrFamily i with
  | plain hi =>
    obtain ⟨v, he⟩ := exec_plainWriter hi s
    exact .inl (writeBack_resolve_fatal (destination_plainWriter _ hi) (he.symm.trans h))
  | flagged hi =>
    obtain ⟨v, x, he⟩ := exec_exWriter hi s
    exact .inl (writeBack_resolve_fatal (destination_exWriter _ hi) (he.symm.trans h))
  | index hi =>
    obtain ⟨v, d, he⟩ := exec_indexTransfer hi s
    exact .inl (writeBack_resolve_fatal (destination_indexTransfer _ hi) (he.symm.trans h))
  | specialWriter hi =>
    obtain ⟨v, he⟩ := exec_specialWriter hi s
    exact .inl (writeBack_resolve_fatal (destination_specialWriter _ hi) (he.symm.trans h))
  | conditional hi =>
    obtain ⟨cond, he⟩ := exec_conditional hi s
    rcases conditional_cases (he.symm.trans h) with ⟨_, ht⟩ | ⟨_, ⟨_, _, ht⟩ | ⟨_, ht⟩⟩ <;> cases ht
  | int a =>
    rcases exec_int_cases a s with ⟨_, he⟩ | ⟨hq, he⟩ <;> cases he.symm.trans h
    exact .inr ⟨a, rfl, hq, rfl⟩
  | ias a | iaq a | jsr a | rfi a | hwq a | hwi a => cases h

/-! ## The invariant -/

theorem exec_keeps_inv {i : Instr} {s t : State} (hs : State.Inv s) (hh : s.halt = none) (h : exec i s = .next t) :
    State.Inv t := by
  have F := exec_frame h
  refine ⟨F.wf hs.mem, ?_, fun r hr => ?_⟩
  · rcases F.queue with hq | ⟨_, hlt, m, hq⟩ <;> rw [hq]
    · exact hs.queue
    · simpa using hlt
  · rw [F.halt, hh] at hr
    cases hr

theorem runInstruction_keeps_inv {s t : State} (hs : State.Inv s) (hh : s.halt = none)
    (h : runInstruction s = .next t) : State.Inv t := by
  rcases runInstruction_cases s with ⟨_, _, he⟩ | ⟨i, _, he⟩
  · cases he.symm.trans h
  · have hfetched : State.Inv (s.setPc (s.pc + 1)) := ⟨hs.mem, hs.queue, hs.halt⟩
    exact exec_keeps_inv hfetched hh (he.symm.trans h)

/-- A fatal fault of one instruction is explained by its kind, and an overflow has found the queue full. -/
theorem runInstruction_fatal {s : State} {f : FaultRecord} (h : runInstruction s = .fault (.fatal f)) :
    f.Explained ∧ (f.kind = .interruptQueueOverflow → queueCapacity ≤ s.queue.length) := by
  rcases runInstruction_cases s with ⟨e, hd, he⟩ | ⟨i, hd, he⟩
  · cases he.symm.trans h
    exact ⟨⟨e, hd⟩, nofun⟩
  · have hi : decode (encode i) = .ok i := (encode_of_decode hd).symm ▸ hd
    rcases exec_fatal (he.symm.trans h) with ⟨hw, rfl⟩ | ⟨a, rfl, hq, rfl⟩
    · exact ⟨⟨i, hi, hw⟩, nofun⟩
    · exact ⟨⟨a, hi⟩, fun _ => hq⟩

theorem takeInterrupt_halt (s : State) : s.takeInterrupt.halt = s.halt := by
  rcases takeInterrupt_cases s with ⟨_, he⟩ | ⟨m, rest, _, _, ⟨_, he⟩ | ⟨_, he⟩⟩ <;> rw [he] <;> rfl

theorem takeInterrupt_wf {s : State} (hm : Memory.wf s.mem = true) : Memory.wf s.takeInterrupt.mem = true := by
  rcases takeInterrupt_cases s with ⟨_, he⟩ | ⟨m, rest, _, _, ⟨_, he⟩ | ⟨_, he⟩⟩ <;> rw [he]
  · exact hm
  · exact hm
  · exact enterHandler_wf (s.setQueue rest) m hm

/-- The dispatch does nothing, or the message it takes leaves room in the queue. -/
theorem takeInterrupt_queue (s : State) :
    s.takeInterrupt.queue = s.queue ∨ s.takeInterrupt.queue.length < s.queue.length := by
  rcases takeInterrupt_cases s with ⟨_, he⟩ | ⟨m, rest, _, hq, ⟨_, he⟩ | ⟨_, he⟩⟩ <;> rw [he]
  · exact .inl rfl
  · exact .inr (by simp [hq])
  · exact .inr (by simp [hq])

/-- The dispatch keeps the invariant of a running core. -/
theorem takeInterrupt_inv {s : State} (hs : State.Inv s) (hh : s.halt = none) : State.Inv s.takeInterrupt := by
  refine ⟨takeInterrupt_wf hs.mem, ?_, fun r hr => ?_⟩
  · rcases takeInterrupt_queue s with hq | hq
    · exact hq ▸ hs.queue
    · exact hq.le.trans hs.queue
  · rw [takeInterrupt_halt, hh] at hr
    cases hr

/-- A queue that is full after the dispatch was full before it. -/
theorem queue_full_of_takeInterrupt_full {s : State} (hs : State.Inv s)
    (h : queueCapacity ≤ s.takeInterrupt.queue.length) : s.queue.length = queueCapacity := by
  rcases takeInterrupt_queue s with hq | hq
  · exact le_antisymm hs.queue (hq ▸ h)
  · exact absurd (hq.trans_le hs.queue) (not_lt.2 h)

/-- Settles O59: a completed instruction runs from a running core that still meets the invariant after the dispatch; a
fault puts its record on the state before the step, and an overflow found the queue full there too. -/
theorem stepKeepsTheInvariant : Obligations.StepKeepsTheInvariant := by
  intro s t hs h
  obtain ⟨hh, hrun | ⟨f, hrun, rfl⟩⟩ := step_next h
  · exact runInstruction_keeps_inv (takeInterrupt_inv hs hh) ((takeInterrupt_halt s).trans hh) hrun
  · obtain ⟨hexpl, hfull⟩ := runInstruction_fatal hrun
    refine ⟨hs.mem, hs.queue, fun r hr => ?_⟩
    cases hr
    exact ⟨hexpl, fun hk => queue_full_of_takeInterrupt_full (s := s) hs (hfull hk)⟩

theorem resetNow_inv (s : State) : State.Inv s.resetNow :=
  ⟨reset_mem_wf, Nat.zero_le _, nofun⟩

/-- Settles O58: reset's memory and queue are empty. -/
theorem resetMeetsTheInvariant : Obligations.ResetMeetsTheInvariant := resetNow_inv State.reset

theorem hostAct_inv {act : HostAction} {s t : State} (hs : State.Inv s) (h : hostAct act s = .next t) :
    State.Inv t := by
  rcases hostAct_cases h with ⟨_, rfl⟩ | ⟨image, _, hl, rfl⟩ | ⟨_, hstep⟩ | ⟨m, _, rfl⟩
  · exact resetNow_inv s
  · exact setProgram_inv hs hl
  · exact stepKeepsTheInvariant s t hs hstep
  · exact deliverInterrupt_inv m hs

/-- Settles O60: every action keeps the invariant, and reachability is induction on the actions. -/
theorem reachableStatesMeetTheInvariant : Obligations.ReachableStatesMeetTheInvariant := by
  refine ⟨fun act s t hs h => hostAct_inv hs h, fun s hr => ?_⟩
  induction hr with
  | reset => exact resetMeetsTheInvariant
  | act s t act _ h ih => exact hostAct_inv ih h

/-! ## Reset -/

/-- Settles O46: every component of the reset state is a literal, and only the model's own counter goes on. -/
theorem resetClearsTheCore : Obligations.ResetClearsTheCore := fun s =>
  have hregs : ∀ r, s.resetNow.getReg r = 0 := fun r => by cases r <;> rfl
  have hwords : ∀ k, s.resetNow.readMem k = 0 := fun k => Memory.read_nil k.toNat
  ⟨s.resetNow, rfl, hregs, rfl, rfl, rfl, rfl, hwords, rfl, rfl, rfl⟩

end Sys2Proof.Machine

/-! # The encoding: decoder and encoder are inverse to each other

An operand and its selector, then an opcode and its row of the opcode maps, go over into one another; the statements
about whole words follow by the two formats. -/

namespace Sys2Proof

/-! ## Operands and their selectors (30_encoding.md R57, R60, R62) -/

theorem decodeSelector_inline {sel : BitVec 6} (h : 0x20 ≤ sel.toNat) :
    decodeSelector sel = .inlineLiteral (w16 ((sel.toNat : Int) - 0x21)) := by
  unfold decodeSelector
  repeat rw [if_neg (by omega)]

/-- The inline constants are the selectors from 0x20 on, -1 wrapping round to the first of them (R60). -/
theorem decodeSelector_selector_inline {v : Word} (h : inlineRange v = true) :
    decodeSelector (Operand.selector (.inlineLiteral v)) = .inlineLiteral v := by
  simp only [inlineRange, Bool.or_eq_true, beq_iff_eq, decide_eq_true_eq] at h
  rcases h with rfl | hv
  · rfl
  · have hsel : (Operand.selector (.inlineLiteral v)).toNat = v.toNat + 0x21 := by
      simp only [Operand.selector, BitVec.toNat_ofNat]
      omega
    rw [decodeSelector_inline (by omega), hsel]
    congr 1
    apply BitVec.eq_of_toNat_eq
    simp only [w16, BitVec.toNat_ofInt]
    omega

theorem decodeSelector_selector {o : Operand} (h : o.wfAs .a = true) : decodeSelector o.selector = o := by
  cases o with
  | inlineLiteral v => exact decodeSelector_selector_inline h
  | reg r | regPointer r | regNextWordPointer r => cases r <;> rfl
  | _ => rfl

theorem wfAs_a_of_wfAs_b {o : Operand} (h : o.wfAs .b = true) : o.wfAs .a = true := by
  cases o with
  | inlineLiteral v => cases h
  | _ => rfl

theorem wfAs_a_decodeSelector : ∀ sel : BitVec 6, (decodeSelector sel).wfAs .a = true := by decide

/-- A 5-bit field names no inline literal (R62). -/
theorem wfAs_b_decodeSelector : ∀ bRaw : BitVec 5, (decodeSelector (bRaw.setWidth 6)).wfAs .b = true := by decide

theorem selectorNextWords_le_one (sel : BitVec 6) : selectorNextWords sel ≤ 1 := by
  dsimp only [selectorNextWords]
  split <;> omega

/-! ## The opcode maps (30_encoding.md R63, R64, R65) -/

section
variable {i : Instr} {b a : Operand}

theorem decodeBasic_opcode (h : i.shape = .basic b a) : decodeBasic i.opcode b a = .ok i := by
  cases i <;> cases h <;> rfl

/-- Opcode 0 is the special format's mark, so the basic map has no row for it (R64). -/
theorem opcode_ne_zero_of_basic (h : i.shape = .basic b a) : i.opcode ≠ 0 := by
  intro h0
  have hdec := decodeBasic_opcode h
  rw [h0] at hdec
  cases hdec

theorem decodeSpecial_opcode (h : i.shape = .special a) : decodeSpecial i.opcode a = .ok i := by
  cases i <;> cases h <;> rfl

theorem decodeBasic_error_iff (op : BitVec 5) :
    (∃ e, decodeBasic op b a = .error e) ↔ op = 0 ∨ op ∈ [0x18#5, 0x19#5, 0x1C#5, 0x1D#5] := by
  have := op.isLt
  simp only [BitVec.toNat_eq, List.mem_cons, List.not_mem_nil, or_false, BitVec.ofNat_eq_ofNat, BitVec.toNat_ofNat]
  unfold decodeBasic
  split
  case h_28 =>
    simp only [imp_false] at *
    exact iff_of_true ⟨_, rfl⟩ (by omega)
  all_goals exact iff_of_false (by simp) (by omega)

theorem decodeSpecial_error_iff (o : BitVec 5) :
    (∃ e, decodeSpecial o a = .error e) ↔
      o ∈ [0x00#5, 0x02#5, 0x03#5, 0x04#5, 0x05#5, 0x06#5, 0x07#5, 0x0D#5, 0x0E#5, 0x0F#5, 0x13#5, 0x14#5, 0x15#5,
        0x16#5, 0x17#5, 0x18#5, 0x19#5, 0x1A#5, 0x1B#5, 0x1C#5, 0x1D#5, 0x1E#5, 0x1F#5] := by
  have := o.isLt
  simp only [BitVec.toNat_eq, List.mem_cons, List.not_mem_nil, or_false, BitVec.toNat_ofNat]
  unfold decodeSpecial
  split
  case h_10 =>
    simp only [imp_false] at *
    exact iff_of_true ⟨_, rfl⟩ (by omega)
  all_goals exact iff_of_false (by simp) (by omega)

end

/-! ## The two formats of a word (30_encoding.md R55, R66) -/

section
variable {w : Word}

theorem decode_special (h : opField w = 0) : decode w = decodeSpecial (bField w) (decodeSelector (aField w)) :=
  if_pos h

theorem decode_basic (h : opField w ≠ 0) :
    decode w = decodeBasic (opField w) (decodeSelector ((bField w).setWidth 6)) (decodeSelector (aField w)) :=
  if_neg h

end

section
variable {i : Instr} {b a : Operand}

theorem encode_basic (h : i.shape = .basic b a) :
    encode i = packWord a.selector (b.selector.setWidth 5) i.opcode := by
  simp only [encode, h]

theorem encode_special (h : i.shape = .special a) : encode i = packWord a.selector i.opcode 0 := by
  simp only [encode, h]

theorem decode_packWord_basic {op : BitVec 5} (hop : op ≠ 0) (hb : b.wfAs .b = true) (ha : a.wfAs .a = true) :
    decode (packWord a.selector (b.selector.setWidth 5) op) = decodeBasic op b a := by
  rw [decode_basic (by rwa [opField_packWord]), opField_packWord, bField_packWord, aField_packWord,
    selector_setWidth_of_wfAs_b b hb, decodeSelector_selector (wfAs_a_of_wfAs_b hb), decodeSelector_selector ha]

theorem decode_packWord_special (o : BitVec 5) (ha : a.wfAs .a = true) :
    decode (packWord a.selector o 0) = decodeSpecial o a := by
  rw [decode_special (opField_packWord ..), bField_packWord, aField_packWord, decodeSelector_selector ha]

end

theorem wf_of_decode {w : Word} {i : Instr} (h : decode w = .ok i) : i.wf = true := by
  have ha := wfAs_a_decodeSelector (aField w)
  by_cases hop : opField w = 0
  · rw [decode_special hop] at h
    rw [Instr.wf, (decodeSpecial_ok h).1]
    exact ha
  · rw [decode_basic hop] at h
    rw [Instr.wf, (decodeBasic_ok h).1, Shape.wf, wfAs_b_decodeSelector, ha]
    rfl

/-! ## The length of an instruction (30_encoding.md R58, R73) -/

theorem length_encodeWords (i : Instr) (na nb : Word) : (encodeWords i na nb).length = i.length := by
  cases hs : i.shape <;>
    simp only [encodeWords, Instr.length, hs, List.length_cons, List.length_append, List.length_replicate] <;> omega

theorem head?_encodeWords (i : Instr) (na nb : Word) : (encodeWords i na nb).head? = some (encode i) := by
  unfold encodeWords
  split <;> rfl

theorem wordLength_encode {i : Instr} (h : i.wf = true) : wordLength (encode i) = i.length := by
  rw [Instr.wf] at h
  cases hs : i.shape with
  | basic b a =>
    rw [hs] at h
    rw [encode_basic hs, Instr.length, hs]
    exact Laws.EncodedLength.of_basic b a _ (opcode_ne_zero_of_basic hs) (Laws.EncodedLength.wf_basic h)
  | special a =>
    rw [encode_special hs, Instr.length, hs]
    exact Laws.EncodedLength.of_special a _

theorem one_le_wordLength (w : Word) : 1 ≤ wordLength w := by
  unfold wordLength
  omega

theorem wordLength_le_three (w : Word) : wordLength w ≤ 3 := by
  have ha := selectorNextWords_le_one (aField w)
  have hb := selectorNextWords_le_one ((bField w).setWidth 6)
  unfold wordLength
  split <;> omega

/-! ## The statements -/

/-- Settles O1: the fields of the packed word are the selectors and the opcode, and each decodes back. -/
theorem decodeOfEncodeIsTheInstruction : Obligations.DecodeOfEncodeIsTheInstruction := by
  intro i h
  rw [Instr.wf] at h
  cases hs : i.shape with
  | basic b a =>
    rw [hs, Shape.wf, Bool.and_eq_true] at h
    obtain ⟨hb, ha⟩ := h
    rw [encode_basic hs, decode_packWord_basic (opcode_ne_zero_of_basic hs) hb ha, decodeBasic_opcode hs]
  | special a =>
    rw [hs] at h
    rw [encode_special hs, decode_packWord_special _ h, decodeSpecial_opcode hs]

/-- Settles O2: a decoded operand stands for its own selector, and is well formed in the place it was read from. -/
theorem decodedWordIsItsEncoding : Obligations.DecodedWordIsItsEncoding :=
  fun _ _ h => ⟨wf_of_decode h, encode_of_decode h⟩

/-- Settles O4: each format rejects exactly its unassigned opcodes. -/
theorem invalidWordsAreTheUnassignedOpcodes : Obligations.InvalidWordsAreTheUnassignedOpcodes := by
  intro w
  by_cases hop : opField w = 0
  · rw [decode_special hop, decodeSpecial_error_iff]
    simp [hop]
  · rw [decode_basic hop, decodeBasic_error_iff]
    simp only [hop, false_or, false_and, or_false]

/-- Settles O5: the encoder's count and the decoder's are both the length of the instruction. -/
theorem encodedWordsFillTheLength : Obligations.EncodedWordsFillTheLength := by
  intro i na nb h
  rw [length_encodeWords, ← wordLength_encode h]
  exact ⟨rfl, one_le_wordLength _, wordLength_le_three _, head?_encodeWords i na nb⟩

/-- Settles O3: the rows and the named selectors evaluate; the inline selectors are a general fact. -/
theorem exampleWordsDecode : Obligations.ExampleWordsDecode := by
  refine ⟨by decide, by decide, by decide, by decide, by decide, by decide, ?_⟩
  exact fun _ h => decodeSelector_inline h

end Sys2Proof

/-! # Operands: what each class resolves to, and the order in which two operands are resolved

Resolving an operand is one equation per class. A SET then stores the word its source had when it was resolved, in the
word its destination named from the state after that. -/

namespace Sys2Proof.Machine

/-- A SET answers the state that writing the word of `a` through the location of `b` leaves (42_basic_arith.md R110). -/
theorem exec_set_next {b a : Operand} {s t : State} :
    exec (.set b a) s = .next t ↔
      (resolveBoth b a s).bloc.write (resolveBoth b a s).a (resolveBoth b a s).state = some t := by
  simp [exec, execSet, transfer, writeBack_next]

/-- A SET through a word of memory answers the state after its operands with that one word stored. -/
theorem exec_set_mem {b a : Operand} {s : State} {addr : Word} (h : (resolveBoth b a s).bloc = .mem addr) :
    exec (.set b a) s = .next ((resolveBoth b a s).state.writeMem addr (resolveBoth b a s).a) := by
  rw [exec_set_next, h]
  rfl

/-- A word stored after both operands are resolved reads back. -/
theorem resolveBoth_writeMem_readMem (b a : Operand) {s : State} (addr v : Word) (hm : Memory.wf s.mem = true) :
    ((resolveBoth b a s).state.writeMem addr v).readMem addr = v :=
  writeMem_readMem_same addr v (by rwa [resolveBoth_mem])

/-- Settles O13: each clause is the resolver's equation for its class, in every position the clause allows. -/
theorem operandClassesResolveAsTheirRules : Obligations.OperandClassesResolveAsTheirRules :=
  fun _ _ _ _ => ⟨rfl, rfl, rfl, rfl, rfl, rfl, rfl, rfl, rfl, rfl, rfl, rfl, rfl⟩

/-- Settles O14: `resolveBoth` is `resolve` of `a`, then `resolve` of `b` from the state that leaves; the two forms of SET
follow from the words and the addresses this order gives them. -/
theorem sourceIsResolvedBeforeDestination : Obligations.SourceIsResolvedBeforeDestination := by
  refine ⟨fun b a s => ⟨rfl, rfl, rfl, rfl⟩, fun s hm => ⟨?setWords, ?setPush⟩⟩
  case setWords =>
    have hb : (resolveBoth .nextWordPointer .nextWordPointer s).bloc = .mem (s.readMem (s.pc + 1)) := rfl
    have ha : (resolveBoth .nextWordPointer .nextWordPointer s).a = s.readMem (s.readMem s.pc) := rfl
    refine ⟨_, exec_set_mem hb, ?_, ?_⟩
    · rw [resolveBoth_writeMem_readMem _ _ _ _ hm, ha]
    · rw [writeMem_pc, resolveBoth_pc]
      exact BitVec.add_assoc s.pc 1 1
  case setPush =>
    have hb : (resolveBoth .pushPop .sp s).bloc = .mem (s.sp - 1) := rfl
    have ha : (resolveBoth .pushPop .sp s).a = s.sp := rfl
    refine ⟨_, exec_set_mem hb, ?_, ?_⟩
    · rw [resolveBoth_writeMem_readMem _ _ _ _ hm, ha]
    · rw [writeMem_sp]
      rfl

end Sys2Proof.Machine

/-! # The step: how an instruction ends, where it leaves PC, and what a fault leaves of the step

How an instruction ends and what it adds to PC are each one fact, proved along the families. The statements about the
step and about runs follow from these facts through the inversion of the step, without looking into an instruction
again. -/

namespace Sys2Proof.Machine

/-! ## The families: their format, and which of them are conditional -/

section
variable {b a : Operand}

theorem shape_plainWriter : ∀ i ∈ plainWriters b a, i.shape = .basic b a := by
  simp [plainWriters, Instr.shape]

theorem shape_exWriter : ∀ i ∈ exWriters b a, i.shape = .basic b a := by
  simp [exWriters, Instr.shape]

theorem shape_indexTransfer : ∀ i ∈ [Instr.sti b a, Instr.std b a], i.shape = .basic b a := by
  simp [Instr.shape]

theorem shape_specialWriter : ∀ i ∈ [Instr.iag a, Instr.hwn a], i.shape = .special a := by
  simp [Instr.shape]

theorem destination_conditional : ∀ i ∈ conditionals b a, destination i = none := by
  simp [conditionals, destination]

/-- The word of an IF carries one of the opcodes 0x10 to 0x17 (30_encoding.md R69). -/
theorem isConditional_encode : ∀ i ∈ conditionals b a, isConditional (encode i) = true := by
  simp [conditionals, isConditional, encode, Instr.shape, Instr.opcode]

end

/-! ## What the operands add to PC -/

/-- What resolving all of its operands adds to PC. -/
def operandsPcDelta (i : Instr) : Word :=
  match i.shape with
  | .basic b a => pcDelta a + pcDelta b
  | .special a => pcDelta a

theorem operandsPcDelta_basic {i : Instr} {b a : Operand} (h : i.shape = .basic b a) :
    operandsPcDelta i = pcDelta a + pcDelta b := by
  simp only [operandsPcDelta, h]

theorem operandsPcDelta_special {i : Instr} {a : Operand} (h : i.shape = .special a) :
    operandsPcDelta i = pcDelta a := by
  simp only [operandsPcDelta, h]

/-- A well-formed instruction is as long as its instruction word and the next words its operands consume. -/
theorem ofNat_length {i : Instr} (h : i.wf = true) : BitVec.ofNat 16 i.length = 1 + operandsPcDelta i := by
  rw [Instr.wf] at h
  cases hs : i.shape with
  | basic b a =>
    rw [hs, Shape.wf, Bool.and_eq_true] at h
    obtain ⟨hb, ha⟩ := h
    simp only [Instr.length, hs, BitVec.ofNat_add, nextWords_of_wfAs b .b hb, nextWords_of_wfAs a .a ha,
      operandsPcDelta_basic hs, BitVec.add_assoc]
    rfl
  | special a =>
    rw [hs] at h
    simp only [Instr.length, hs, BitVec.ofNat_add, nextWords_of_wfAs a .a h, operandsPcDelta_special hs]
    rfl

/-! ## Every instruction with a destination ends in the write-back (41_step.md R105) -/

/-- An instruction whose destination is `o` resolves its operands, `o` the last, writes through the location of `o`, and
does a rest that leaves PC alone. -/
theorem exec_writer {i : Instr} {o : Operand} (hd : destination i = some o) (s : State) :
    ∃ p s0 v rest, exec i s = writeBack i s (resolve o p s0).1 v (resolve o p s0).2 rest ∧
      (resolve o p s0).2.pc = s.pc + operandsPcDelta i ∧ ∀ u, (rest u).pc = u.pc := by
  have hbasic {b a} (hs : i.shape = .basic b a) : (resolveBoth b a s).state.pc = s.pc + operandsPcDelta i := by
    rw [resolveBoth_pc, operandsPcDelta_basic hs, BitVec.add_assoc]
  have hspecial {a} (hs : i.shape = .special a) : (resolveSource a s).state.pc = s.pc + operandsPcDelta i := by
    rw [resolveSource_pc, operandsPcDelta_special hs]
  cases instrFamily i with
  | plain hi =>
    cases (destination_plainWriter _ hi).symm.trans hd
    obtain ⟨v, he⟩ := exec_plainWriter hi s
    exact ⟨.b, _, v, id, he, hbasic (shape_plainWriter _ hi), fun _ => rfl⟩
  | flagged hi =>
    cases (destination_exWriter _ hi).symm.trans hd
    obtain ⟨v, x, he⟩ := exec_exWriter hi s
    exact ⟨.b, _, v, _, he, hbasic (shape_exWriter _ hi), fun u => setEx_pc u x⟩
  | index hi =>
    cases (destination_indexTransfer _ hi).symm.trans hd
    obtain ⟨v, d, he⟩ := exec_indexTransfer hi s
    exact ⟨.b, _, v, _, he, hbasic (shape_indexTransfer _ hi), stepIndexRegs_pc d⟩
  | specialWriter hi =>
    cases (destination_specialWriter _ hi).symm.trans hd
    obtain ⟨v, he⟩ := exec_specialWriter hi s
    exact ⟨.a, s, v, id, he, hspecial (shape_specialWriter _ hi), fun _ => rfl⟩
  | conditional hi => cases (destination_conditional _ hi).symm.trans hd
  | int a | ias a | iaq a | jsr a | rfi a | hwq a | hwi a => cases hd

/-! ## How an instruction ends -/

theorem writeBack_next_or_fatal (i : Instr) (e : State) (l : Loc) (v : Word) (s : State) (rest : State → State) :
    (∃ t, writeBack i e l v s rest = .next t) ∨ ∃ f, writeBack i e l v s rest = .fault (.fatal f) := by
  unfold writeBack
  cases l.write v s with
  | some t => exact .inl ⟨_, rfl⟩
  | none => exact .inr ⟨_, rfl⟩

theorem exec_writer_next_or_fatal {i : Instr} {o : Operand} (hd : destination i = some o) (s : State) :
    (∃ t, exec i s = .next t) ∨ ∃ f, exec i s = .fault (.fatal f) := by
  obtain ⟨p, s0, v, rest, he, _⟩ := exec_writer hd s
  exact he ▸ writeBack_next_or_fatal ..

/-- Every instruction completes, raises a fatal fault, or is a conditional stuck on its skip chain (41_step.md R97);
none is refused. -/
theorem exec_outcome (i : Instr) (s : State) :
    ((∃ t, exec i s = .next t) ∨ ∃ f, exec i s = .fault (.fatal f)) ∨
    (exec i s = .fault .skipChainNeverEnds ∧ isConditional (encode i) = true) := by
  cases instrFamily i with
  | plain hi => exact .inl (exec_writer_next_or_fatal (destination_plainWriter _ hi) s)
  | flagged hi => exact .inl (exec_writer_next_or_fatal (destination_exWriter _ hi) s)
  | index hi => exact .inl (exec_writer_next_or_fatal (destination_indexTransfer _ hi) s)
  | specialWriter hi => exact .inl (exec_writer_next_or_fatal (destination_specialWriter _ hi) s)
  | conditional hi =>
    obtain ⟨cond, he⟩ := exec_conditional hi s
    rcases conditional_cases he.symm with ⟨_, ht⟩ | ⟨_, ⟨_, _, ht⟩ | ⟨_, ht⟩⟩
    · exact .inl (.inl ⟨_, ht⟩)
    · exact .inl (.inl ⟨_, ht⟩)
    · exact .inr ⟨ht, isConditional_encode _ hi⟩
  | int a =>
    rcases exec_int_cases a s with ⟨_, he⟩ | ⟨_, he⟩
    · exact .inl (.inl ⟨_, he⟩)
    · exact .inl (.inr ⟨_, he⟩)
  | ias a | iaq a | jsr a | rfi a | hwq a | hwi a => exact .inl (.inl ⟨_, rfl⟩)

/-! ## Writes through a literal (41_step.md R107) -/

theorem destination_of_writesLiteral {i : Instr} (h : writesLiteral i = true) :
    ∃ o, destination i = some o ∧ writable o = false := by
  unfold writesLiteral at h
  cases hd : destination i with
  | none => simp [hd] at h
  | some o => exact ⟨o, rfl, by simpa [hd] using h⟩

theorem exec_of_writesLiteral {i : Instr} (s : State) (h : writesLiteral i = true) :
    exec i s = .fault (.fatal (s.faultBy .invalidWriteTarget i)) := by
  obtain ⟨o, hd, ho⟩ := destination_of_writesLiteral h
  obtain ⟨p, s0, v, rest, he, _⟩ := exec_writer hd s
  exact he.trans (writeBack_fault.2 ⟨(resolve_lit_iff o p s0).2 ho, rfl⟩)

/-- Settles O57: the other fatal fault an instruction raises is INT's overflow, which is of another kind. -/
theorem invalidWriteTargetExactlyAtLiterals : Obligations.InvalidWriteTargetExactlyAtLiterals := by
  intro i s r
  constructor
  · rintro ⟨h, hk⟩
    rcases exec_fatal h with hw | ⟨a, _, _, rfl⟩
    · exact hw
    · cases hk
  · rintro ⟨hw, rfl⟩
    exact ⟨exec_of_writesLiteral s hw, rfl⟩

/-! ## PC after an instruction (41_step.md R102) -/

@[simp] theorem hardwareQuery_pc (s : State) (index : Word) : (s.hardwareQuery index).pc = s.pc := by
  obtain ⟨q, hq | hq⟩ := hardwareQuery_eq s index <;> rw [hq] <;> rfl

@[simp] theorem hardwareInterrupt_pc (s : State) (index : Word) : (s.hardwareInterrupt index).pc = s.pc := by
  rcases hardwareInterrupt_cases s index with ⟨_, he⟩ | ⟨_, _, _, he, _⟩ <;> rw [he]

section
variable {i : Instr} {s t : State}

theorem exec_writer_pc {o : Operand} (hd : destination i = some o) (hne : destination i ≠ some .pc)
    (h : exec i s = .next t) : t.pc = s.pc + operandsPcDelta i := by
  obtain ⟨p, s0, v, rest, he, hpc, hrest⟩ := exec_writer hd s
  obtain ⟨u, hu, rfl⟩ := writeBack_next.1 (he.symm.trans h)
  have ho : o ≠ .pc := fun e => hne (e ▸ hd)
  rw [hrest, (Loc.write_frame hu).pc (mt (resolve_pc_iff o p s0).1 ho), hpc]

/-- An instruction that does not jump, skip or write PC leaves PC where resolving its operands does. -/
theorem exec_pc (hc : isConditional (encode i) = false) (hne : destination i ≠ some .pc)
    (hj : ∀ a, i ≠ .jsr a ∧ i ≠ .rfi a) (h : exec i s = .next t) : t.pc = s.pc + operandsPcDelta i := by
  cases instrFamily i with
  | plain hi => exact exec_writer_pc (destination_plainWriter _ hi) hne h
  | flagged hi => exact exec_writer_pc (destination_exWriter _ hi) hne h
  | index hi => exact exec_writer_pc (destination_indexTransfer _ hi) hne h
  | specialWriter hi => exact exec_writer_pc (destination_specialWriter _ hi) hne h
  | conditional hi => cases hc.symm.trans (isConditional_encode _ hi)
  | jsr a => exact absurd rfl (hj a).1
  | rfi a => exact absurd rfl (hj a).2
  | int a =>
    obtain ⟨_, rfl⟩ := int_next h
    exact resolveSource_pc a s
  | ias a | iaq a =>
    cases h
    exact resolveSource_pc a s
  | hwq a =>
    cases h
    exact (hardwareQuery_pc _ _).trans (resolveSource_pc a s)
  | hwi a =>
    cases h
    exact (hardwareInterrupt_pc _ _).trans (resolveSource_pc a s)

end

/-- Settles O12: PC moves past the next words as the operands are resolved, and a well-formed instruction is just these
and its own word. -/
theorem pcEndsPastTheInstruction : Obligations.PcEndsPastTheInstruction := by
  intro i s t hwf hc hd hj h
  rw [exec_pc hc hd hj h, ofNat_length hwf, ← BitVec.add_assoc, BitVec.sub_add_cancel]

/-! ## The step, by the word fetched -/

section
variable {s t : State}

theorem runInstruction_ok {i : Instr} (h : decode (s.readMem s.pc) = .ok i) :
    runInstruction s = exec i (s.setPc (s.pc + 1)) := by
  rcases runInstruction_cases s with ⟨e, hd, _⟩ | ⟨j, hd, he⟩ <;> cases hd.symm.trans h
  exact he

theorem runInstruction_error {e : DecodeError} (h : decode (s.readMem s.pc) = .error e) :
    runInstruction s = .fault (.fatal { kind := .invalidOpcode, pc := s.pc, word := some (s.readMem s.pc) }) := by
  rcases runInstruction_cases s with ⟨_, _, he⟩ | ⟨j, hd, _⟩
  · exact he
  · cases hd.symm.trans h

theorem runInstruction_keeps_halt (h : runInstruction s = .next t) : t.halt = s.halt := by
  rcases runInstruction_cases s with ⟨_, _, he⟩ | ⟨i, _, he⟩
  · cases he.symm.trans h
  · exact (exec_frame (he.symm.trans h)).halt

/-- Running one instruction completes, raises a fatal fault, or is stuck at a conditional. -/
theorem runInstruction_outcome (s : State) :
    ((∃ t, runInstruction s = .next t) ∨ ∃ f, runInstruction s = .fault (.fatal f)) ∨
    (runInstruction s = .fault .skipChainNeverEnds ∧ isConditional (s.readMem s.pc) = true) := by
  rcases runInstruction_cases s with ⟨_, _, he⟩ | ⟨i, hd, he⟩
  · exact .inl (.inr ⟨_, he⟩)
  · rw [he, ← encode_of_decode hd]
    exact exec_outcome i _

end

/-- Settles O6. -/
theorem stepRunsTheDecodedInstruction : Obligations.StepRunsTheDecodedInstruction := by
  intro s i hh hd
  rw [step_running hh, runInstruction_ok hd]
  exact ⟨fun t h => by rw [h]; rfl, fun r h => by rw [h]; rfl, fun h => by rw [h]; rfl⟩

/-- Settles O7. -/
theorem invalidWordHaltsTheCore : Obligations.InvalidWordHaltsTheCore := by
  intro s e hh hd
  rw [step_running hh, runInstruction_error hd]
  rfl

/-- Settles O8: a completed instruction of a running core leaves it running, so the step ended in a fault. -/
theorem faultingStepChangesOnlyHalt : Obligations.FaultingStepChangesOnlyHalt := by
  intro s t r h hr
  obtain ⟨hh, hrun | ⟨f, _, rfl⟩⟩ := step_next h
  · rw [runInstruction_keeps_halt hrun, takeInterrupt_halt, hh] at hr
    cases hr
  · cases hr
    rfl

/-- Settles O9: settling makes a next state of a fatal fault, and only the stuck case is left as it is. -/
theorem stepCompletesUnlessSkipChainIsEndless : Obligations.StepCompletesUnlessSkipChainIsEndless := by
  intro s hh
  rw [step_running hh]
  rcases runInstruction_outcome s.takeInterrupt with (⟨t, he⟩ | ⟨f, he⟩) | ⟨he, hc⟩ <;> rw [he]
  · exact .inl ⟨t, rfl⟩
  · exact .inl ⟨s.haltWith f, rfl⟩
  · exact .inr ⟨rfl, hc⟩

/-! ## A halted core stays halted -/

/-- Settles O10: a halted core has no next step and ignores a delivery, and `set_program` does not touch `halt`. -/
theorem onlyResetClearsHalt : Obligations.OnlyResetClearsHalt := by
  intro s r hr
  refine ⟨step_halted hr, fun act t hact h => ?_⟩
  rcases hostAct_cases h with ⟨hreset, _⟩ | ⟨image, _, _, rfl⟩ | ⟨_, hstep⟩ | ⟨m, _, rfl⟩
  · exact absurd hreset hact
  · exact hr
  · cases (step_halted hr).symm.trans hstep
  · rcases deliverInterrupt_cases s m with ⟨_, he⟩ | ⟨hh, _⟩ | ⟨hh, _⟩
    · rw [he, hr]
    · cases hr.symm.trans hh
    · cases hr.symm.trans hh

/-! ## Runs -/

theorem run_succ_next {M : Host.Core} {k : Nat} {s t : M.State} :
    M.run (k + 1) s = .next t ↔ ∃ u, M.step s = .next u ∧ M.run k u = .next t := by
  rw [Host.Core.run]
  cases M.step s <;> simp

/-- A completed run of `n + k` steps is `n` steps and then `k` more. -/
theorem run_add_next {M : Host.Core} {n k : Nat} {s t : M.State} (h : M.run (n + k) s = .next t) :
    ∃ u, M.run n s = .next u ∧ M.run k u = .next t := by
  induction n generalizing s with
  | zero => exact ⟨s, rfl, by rwa [Nat.zero_add] at h⟩
  | succ n ih =>
    rw [Nat.succ_add] at h
    obtain ⟨s', hstep, hrun⟩ := run_succ_next.1 h
    obtain ⟨u, hn, hk⟩ := ih hrun
    exact ⟨u, run_succ_next.2 ⟨s', hstep, hn⟩, hk⟩

/-- A run that ends in a running core began in one. -/
theorem halt_none_of_run {k : Nat} {s t : State} (h : core.run k s = .next t) (ht : t.halt = none) : s.halt = none := by
  cases k with
  | zero =>
    cases h
    exact ht
  | succ k =>
    obtain ⟨u, hstep, _⟩ := run_succ_next.1 h
    exact (step_next hstep).1

/-- Settles O11: the state after the first `n` steps begins a run that ends in a running core. -/
theorem safeRunsArePrefixClosed : Obligations.SafeRunsArePrefixClosed := by
  rintro n k s ⟨t, h, ht⟩
  obtain ⟨u, hn, hk⟩ := run_add_next h
  exact ⟨u, hn, halt_none_of_run hk ht⟩

end Sys2Proof.Machine

/-! # Arithmetic: SET to MDI

An instruction of one of the two computing templates completes at a writable `b` with the words of its formulas in `b` and
in EX, and raises InvalidWriteTarget at a literal one. Each result statement adds what its formulas are worth
(Sys2Proof/Laws/Flags.lean); the operands are not looked into again. -/

namespace Sys2Proof.Machine

/-! ## What each instruction computes -/

section
variable (b a : Operand) (s : State)

theorem exec_set : exec (.set b a) s = computeResult (.set b a) b a (fun _ x => x) s := rfl

theorem exec_add : exec (.add b a) s =
    computeResultEx (.add b a) b a (fun x y _ => addResult x y) (fun x y _ => addEx x y) s := rfl

theorem exec_sub : exec (.sub b a) s =
    computeResultEx (.sub b a) b a (fun x y _ => subResult x y) (fun x y _ => subEx x y) s := rfl

theorem exec_mul : exec (.mul b a) s =
    computeResultEx (.mul b a) b a (fun x y _ => mulResult x y) (fun x y _ => mulEx x y) s := rfl

theorem exec_mli : exec (.mli b a) s =
    computeResultEx (.mli b a) b a (fun x y _ => mliResult x y) (fun x y _ => mliEx x y) s := rfl

theorem exec_div : exec (.div b a) s =
    computeResultEx (.div b a) b a (fun x y _ => divResult x y) (fun x y _ => divEx x y) s := rfl

theorem exec_dvi : exec (.dvi b a) s =
    computeResultEx (.dvi b a) b a (fun x y _ => dviResult x y) (fun x y _ => dviEx x y) s := rfl

theorem exec_mod : exec (.mod b a) s = computeResult (.mod b a) b a modResult s := rfl

theorem exec_mdi : exec (.mdi b a) s = computeResult (.mdi b a) b a mdiResult s := rfl

end

/-! ## What the statements of this family share -/

/-- The low five bits of a basic instruction's word are its opcode (30_encoding.md R63). -/
theorem opField_encode_basic {i : Instr} {b a : Operand} (hs : i.shape = .basic b a) :
    opField (encode i) = i.opcode := by
  rw [encode_basic hs, opField_packWord]

/-- A write through a literal destination is InvalidWriteTarget (41_step.md R107). -/
theorem exec_invalidWriteTarget {i : Instr} {o : Operand} {s : State} (hd : destination i = some o)
    (ho : writable o = false) : ∃ r, exec i s = .fault (.fatal r) ∧ r.kind = .invalidWriteTarget := by
  have hlit : writesLiteral i = true := by simp [writesLiteral, hd, ho]
  exact ⟨_, exec_of_writesLiteral s hlit, rfl⟩

section
variable {i : Instr} {b a : Operand} {s : State}

/-- An instruction without an EX rule leaves its result in a writable `b`, and EX as it was unless it is `b`. -/
theorem exec_completes_result {f : Word → Word → Word} (he : exec i s = computeResult i b a f s)
    (hb : writable b = true) (hm : Memory.wf s.mem = true) :
    ∃ t, exec i s = .next t ∧
      (resolveBoth b a s).bloc.read t = f (resolveBoth b a s).b (resolveBoth b a s).a ∧ (b ≠ .ex → t.ex = s.ex) :=
  he ▸ computeResult_completes i b a f s hb hm

/-- An instruction with an EX rule leaves its result in a writable `b` and its rule's word in EX, which is written last
(41_step.md R105). -/
theorem exec_completes_resultEx {f g : Word → Word → Word → Word} (he : exec i s = computeResultEx i b a f g s)
    (hb : writable b = true) (hm : Memory.wf s.mem = true) :
    ∃ t, exec i s = .next t ∧
      (b ≠ .ex → (resolveBoth b a s).bloc.read t = f (resolveBoth b a s).b (resolveBoth b a s).a s.ex) ∧
      t.ex = g (resolveBoth b a s).b (resolveBoth b a s).a s.ex :=
  he ▸ computeResultEx_completes i b a f g s hb hm

end

/-! ## Results (42_basic_arith.md R110 to R118) -/

/-- Settles O15: SET computes its source, whatever `b` holds. -/
theorem setCopiesItsSource : Obligations.SetCopiesItsSource := by
  refine fun b a s hm => ⟨opField_encode_basic rfl, fun hb => ?_, exec_invalidWriteTarget rfl⟩
  exact exec_completes_result (exec_set b a s) hb hm

/-- Settles O16: narrowing the true sum is the sum of the words, and EX tells whether it lost anything. -/
theorem addWritesSumAndCarry : Obligations.AddWritesSumAndCarry := by
  refine fun b a s hm => ⟨opField_encode_basic rfl, fun hb => ?_, exec_invalidWriteTarget rfl⟩
  obtain ⟨t, he, hres, hex⟩ := exec_completes_resultEx (exec_add b a s) hb hm
  exact ⟨t, he, fun hne => (hres hne).trans (addResult_eq _ _), hex.trans (addEx_eq _ _)⟩

/-- Settles O17: narrowing the true difference is the difference of the words, and EX tells whether it was negative. -/
theorem subWritesDifferenceAndBorrow : Obligations.SubWritesDifferenceAndBorrow := by
  refine fun b a s hm => ⟨opField_encode_basic rfl, fun hb => ?_, exec_invalidWriteTarget rfl⟩
  obtain ⟨t, he, hres, hex⟩ := exec_completes_resultEx (exec_sub b a s) hb hm
  exact ⟨t, he, fun hne => (hres hne).trans (subResult_eq _ _), hex.trans (subEx_eq _ _)⟩

/-- Settles O18: the two narrowed halves make up the unsigned product. -/
theorem mulWritesLowAndHighWord : Obligations.MulWritesLowAndHighWord := by
  refine fun b a s hm => ⟨opField_encode_basic rfl, fun hb => ?_, exec_invalidWriteTarget rfl⟩
  obtain ⟨t, he, hres, hex⟩ := exec_completes_resultEx (exec_mul b a s) hb hm
  exact ⟨t, he, fun hne => (hres hne).trans (mulResult_eq _ _), hex ▸ mulEx_toNat _ _⟩

/-- Settles O19: the two narrowed halves make up the signed product, whose low word is the unsigned one's. -/
theorem mliWritesSignedProduct : Obligations.MliWritesSignedProduct := by
  intro b a s hm hb
  obtain ⟨t, he, hres, hex⟩ := exec_completes_resultEx (exec_mli b a s) hb hm
  exact ⟨t, he, fun hne => (hres hne).trans (mliResult_eq _ _), hex ▸ mliEx_append _ _⟩

/-- Settles O20: the quotient of two words is a word, and narrowing keeps the fraction's 16 bits alone. -/
theorem divWritesQuotientAndFraction : Obligations.DivWritesQuotientAndFraction := by
  refine fun b a s hm => ⟨opField_encode_basic rfl, fun hb => ?_, exec_invalidWriteTarget rfl⟩
  obtain ⟨t, he, hres, hex⟩ := exec_completes_resultEx (exec_div b a s) hb hm
  exact ⟨t, he, fun hne => hres hne ▸ divResult_toNat _ _, hex ▸ divEx_toNat _ _⟩

/-- Settles O21: division truncated toward zero is the bit vectors' signed division, at the corner -32768 and -1 and on
division by zero too. -/
theorem dviWritesSignedQuotientAndFraction : Obligations.DviWritesSignedQuotientAndFraction := by
  intro b a s hm hb
  obtain ⟨t, he, hres, hex⟩ := exec_completes_resultEx (exec_dvi b a s) hb hm
  exact ⟨t, he, fun hne => (hres hne).trans (dviResult_eq _ _), hex.trans (dviEx_eq _ _)⟩

/-- Settles O22: the remainder of two words is a word. -/
theorem modWritesRemainder : Obligations.ModWritesRemainder := by
  refine fun b a s hm => ⟨opField_encode_basic rfl, fun hb => ?_, exec_invalidWriteTarget rfl⟩
  obtain ⟨t, he, hres, hex⟩ := exec_completes_result (exec_mod b a s) hb hm
  exact ⟨t, he, hres ▸ modResult_toNat _ _, hex⟩

/-- Settles O23: the remainder truncated toward zero is the bit vectors' signed remainder. -/
theorem mdiWritesSignedRemainder : Obligations.MdiWritesSignedRemainder := by
  intro b a s hm hb
  obtain ⟨t, he, hres, hex⟩ := exec_completes_result (exec_mdi b a s) hb hm
  exact ⟨t, he, hres.trans (mdiResult_eq _ _), hex⟩

/-! ## A register as `b`: ADD, then SUB (42_basic_arith.md R119) -/

section
variable {r : Reg} {a : Operand}

theorem resolveBoth_b_reg (s : State) : (resolveBoth (.reg r) a s).b = s.getReg r :=
  resolveBoth_getReg (.reg r) a s r

/-- With a register as `b` an instruction with an EX rule completes in every state: a write to a register asks nothing of
memory. -/
theorem exec_completes_resultEx_reg {i : Instr} {f g : Word → Word → Word → Word} {s : State}
    (he : exec i s = computeResultEx i (.reg r) a f g s) :
    ∃ t, exec i s = .next t ∧ t.getReg r = f (s.getReg r) (resolveBoth (.reg r) a s).a s.ex ∧
      t.ex = g (s.getReg r) (resolveBoth (.reg r) a s).a s.ex := by
  simp only [computeResultEx, resolveBoth_b_reg, resolveBoth_ex] at he
  refine ⟨_, he.trans (writeBack_next.2 ⟨_, rfl, rfl⟩), ?_, setEx_ex _ _⟩
  rw [setEx_getReg, setReg_getReg_same]

/-- An `a` that is an inline literal or a register other than `r` reads the same after an instruction that writes `r`. -/
theorem source_val_of_exWriter_reg {i : Instr} {s t : State}
    (ha : (∃ v, a = .inlineLiteral v) ∨ ∃ q, a = .reg q ∧ q ≠ r) (hi : i ∈ exWriters (.reg r) a)
    (h : exec i s = .next t) : (resolveBoth (.reg r) a t).a = (resolveBoth (.reg r) a s).a := by
  rcases ha with ⟨v, rfl⟩ | ⟨q, rfl, hq⟩
  · rfl
  · obtain ⟨hregs, _⟩ := exWritersFrame _ _ _ _ _ hi h
    exact hregs q fun e => hq (Operand.reg.inj e).symm

end

/-- Settles O30: SUB reads the word ADD read, and takes off what ADD put on. -/
theorem addThenSubRestores : Obligations.AddThenSubRestores := by
  intro r a s ha
  obtain ⟨t, hadd, ht, _⟩ := exec_completes_resultEx_reg (exec_add (.reg r) a s)
  obtain ⟨u, hsub, hu, _⟩ := exec_completes_resultEx_reg (exec_sub (.reg r) a t)
  have hval : (resolveBoth (.reg r) a t).a = (resolveBoth (.reg r) a s).a :=
    source_val_of_exWriter_reg ha (by simp [exWriters]) hadd
  refine ⟨t, u, hadd, hsub, ?_⟩
  calc u.getReg r
      = t.getReg r - (resolveBoth (.reg r) a t).a := hu.trans (subResult_eq _ _)
    _ = s.getReg r + (resolveBoth (.reg r) a s).a - (resolveBoth (.reg r) a s).a := by
        rw [hval, ht.trans (addResult_eq _ _)]
    _ = s.getReg r := BitVec.add_sub_cancel _ _

end Sys2Proof.Machine

/-! # Bitwise operations: AND to SHL

These instructions share the templates of the arithmetic ones. AND, BOR and XOR have no EX rule and act on each bit; a
shift puts in EX the bits that left the word. -/

namespace Sys2Proof.Machine

/-! ## What each instruction computes -/

section
variable (b a : Operand) (s : State)

theorem exec_and : exec (.and b a) s = computeResult (.and b a) b a andResult s := rfl

theorem exec_bor : exec (.bor b a) s = computeResult (.bor b a) b a borResult s := rfl

theorem exec_xor : exec (.xor b a) s = computeResult (.xor b a) b a xorResult s := rfl

theorem exec_shr : exec (.shr b a) s =
    computeResultEx (.shr b a) b a (fun x y _ => shrResult x y) (fun x y _ => shrEx x y) s := rfl

theorem exec_asr : exec (.asr b a) s =
    computeResultEx (.asr b a) b a (fun x y _ => asrResult x y) (fun x y _ => asrEx x y) s := rfl

theorem exec_shl : exec (.shl b a) s =
    computeResultEx (.shl b a) b a (fun x y _ => shlResult x y) (fun x y _ => shlEx x y) s := rfl

end

/-- ASR takes the bits shifted out from the raw bits of `b`, so its EX is SHR's (43_basic_bitwise.md R129). -/
theorem asrEx_eq (b a : Word) : asrEx b a = ((b ++ 0#16 : BitVec 32) >>> a.toNat).setWidth 16 := shrEx_eq b a

/-! ## Results (43_basic_bitwise.md R125 to R131) -/

/-- An instruction whose result is `f` on each bit leaves `f` of the operands' bits in a writable `b`. -/
theorem exec_completes_bitwise {i : Instr} {b a : Operand} {s : State} {g : Word → Word → Word} {f : Bool → Bool → Bool}
    (he : exec i s = computeResult i b a g s)
    (hg : ∀ x y n, (g x y).getLsbD n = f (x.getLsbD n) (y.getLsbD n))
    (hb : writable b = true) (hm : Memory.wf s.mem = true) :
    ∃ t, exec i s = .next t ∧
      (∀ n, ((resolveBoth b a s).bloc.read t).getLsbD n =
        f ((resolveBoth b a s).b.getLsbD n) ((resolveBoth b a s).a.getLsbD n)) ∧
      (b ≠ .ex → t.ex = s.ex) := by
  obtain ⟨t, hnext, hres, hex⟩ := exec_completes_result he hb hm
  exact ⟨t, hnext, fun n => by rw [hres, hg], hex⟩

/-- Settles O24: each of the three computes a word operation that is its Boolean one on every bit. -/
theorem andBorXorWriteBitwiseResults : Obligations.AndBorXorWriteBitwiseResults := by
  intro b a s f i hm hi
  refine ⟨opField_encode_basic rfl, opField_encode_basic rfl, opField_encode_basic rfl, ?_⟩
  simp only [List.mem_cons, List.not_mem_nil, or_false, Prod.mk.injEq] at hi
  rcases hi with ⟨rfl, rfl⟩ | ⟨rfl, rfl⟩ | ⟨rfl, rfl⟩
  · exact ⟨fun hb => exec_completes_bitwise (exec_and b a s) (fun _ _ _ => BitVec.getLsbD_and) hb hm,
      exec_invalidWriteTarget rfl⟩
  · exact ⟨fun hb => exec_completes_bitwise (exec_bor b a s) (fun _ _ _ => BitVec.getLsbD_or) hb hm,
      exec_invalidWriteTarget rfl⟩
  · exact ⟨fun hb => exec_completes_bitwise (exec_xor b a s) (fun _ _ _ => BitVec.getLsbD_xor) hb hm,
      exec_invalidWriteTarget rfl⟩

/-- Settles O25: narrowing the shifted integer is the word's logical or arithmetic shift, at every amount, and the two
have one EX rule. -/
theorem rightShiftsWriteShiftAndBitsOut : Obligations.RightShiftsWriteShiftAndBitsOut := by
  intro b a s i v hm hb hi
  simp only [List.mem_cons, List.not_mem_nil, or_false, Prod.mk.injEq] at hi
  rcases hi with ⟨rfl, rfl⟩ | ⟨rfl, rfl⟩
  · obtain ⟨t, he, hres, hex⟩ := exec_completes_resultEx (exec_shr b a s) hb hm
    exact ⟨t, he, fun hne => (hres hne).trans (shrResult_eq _ _), hex.trans (shrEx_eq _ _)⟩
  · obtain ⟨t, he, hres, hex⟩ := exec_completes_resultEx (exec_asr b a s) hb hm
    exact ⟨t, he, fun hne => (hres hne).trans (asrResult_eq _ _), hex.trans (asrEx_eq _ _)⟩

/-- Settles O26: the low half of the shifted integer is the word's shift, and EX its next 16 bits. -/
theorem shlWritesShiftAndBitsOut : Obligations.ShlWritesShiftAndBitsOut := by
  intro b a s hm hb
  obtain ⟨t, he, hres, hex⟩ := exec_completes_resultEx (exec_shl b a s) hb hm
  exact ⟨t, he, fun hne => (hres hne).trans (shlResult_eq _ _), hex.trans (shlEx_eq _ _)⟩

end Sys2Proof.Machine

/-! # The conditionals

A conditional whose test fails hands PC to the skip chain. The chain reads memory and nothing else, so it is the iteration
of one function on words; a word it comes back to it comes back to for ever, and after 65536 skips it must have come back to one. -/

namespace Sys2Proof.Machine

/-! ## The bounded skip chain -/

/-- One skip: the address past the instruction whose first word is at `pc` (44_basic_conditional.md R144). -/
def skipWord (m : Memory) (pc : Word) : Word := pc + BitVec.ofNat 16 (wordLength (Memory.read m pc.toNat))

section
variable {m : Memory} {pc p : Word}

theorem skipChain_succ (m : Memory) (n : Nat) (pc : Word) : skipChain m (n + 1) pc =
    if isConditional (Memory.read m pc.toNat) then skipChain m n (skipWord m pc) else some (skipWord m pc) := rfl

/-- A chain allowed `k + n` skips ends within the first `k`, or goes on from the word they lead to with `n` more. -/
theorem skipChain_add (m : Memory) (k n : Nat) (pc : Word) :
    skipChain m (k + n) pc = (skipChain m k pc).or (skipChain m n ((skipWord m)^[k] pc)) := by
  induction k generalizing pc with
  | zero => simp [skipChain]
  | succ k ih =>
    rw [Nat.succ_add, skipChain_succ, skipChain_succ, Function.iterate_succ_apply]
    split
    · exact ih _
    · rfl

theorem skipChain_none_of_le {k n : Nat} (hk : k ≤ n) (h : skipChain m n pc = none) : skipChain m k pc = none := by
  obtain ⟨d, rfl⟩ := Nat.exists_eq_add_of_le hk
  rw [skipChain_add, Option.or_eq_none_iff] at h
  exact h.1

/-- Among the first 65537 words an iteration visits, one comes back. -/
theorem exists_iterate_eq_iterate (f : Word → Word) (pc : Word) :
    ∃ i j, i < j ∧ j ≤ memorySize ∧ f^[i] pc = f^[j] pc := by
  obtain ⟨i, j, hne, he⟩ := Fintype.exists_ne_map_eq_of_card_lt
    (fun k : Fin (memorySize + 1) => (f^[k] pc).toFin) (by rw [Fintype.card_fin, Fintype.card_fin]; decide)
  have he := BitVec.toFin_inj.1 he
  rcases lt_or_gt_of_ne hne with hij | hij
  · exact ⟨i, j, hij, Nat.le_of_lt_succ j.isLt, he⟩
  · exact ⟨j, i, hij, Nat.le_of_lt_succ i.isLt, he.symm⟩

/-- A chain that has not ended after 65536 skips has come back to a word it has skipped, and never ends. -/
theorem skipChain_none_of_memorySize (h : skipChain m memorySize pc = none) (n : Nat) : skipChain m n pc = none := by
  obtain ⟨i, j, hij, hj, hrepeat⟩ := exists_iterate_eq_iterate (skipWord m) pc
  induction n using Nat.strongRecOn with
  | ind n ih =>
    rcases le_total n memorySize with hn | hn
    · exact skipChain_none_of_le hn h
    · obtain ⟨r, rfl⟩ := Nat.exists_eq_add_of_le (hj.trans hn)
      calc skipChain m (j + r) pc
          = skipChain m r ((skipWord m)^[j] pc) := by rw [skipChain_add, skipChain_none_of_le hj h, Option.none_or]
        _ = skipChain m r ((skipWord m)^[i] pc) := by rw [hrepeat]
        _ = skipChain m (i + r) pc := by
            rw [skipChain_add, skipChain_none_of_le (hij.le.trans hj) h, Option.none_or]
        _ = none := ih _ (by omega)

/-! ## The chain of the rules -/

theorem skipsTo_of_skipChain {n : Nat} (h : skipChain m n pc = some p) : SkipsTo m pc p := by
  induction n generalizing pc with
  | zero => cases h
  | succ n ih =>
    rw [skipChain_succ] at h
    split at h
    · next hc => exact .more pc p hc (ih h)
    · next hc =>
      cases h
      exact .last pc (Bool.eq_false_iff.2 hc)

theorem skipChain_of_skipsTo (h : SkipsTo m pc p) : ∃ n, skipChain m n pc = some p := by
  induction h with
  | last pc hc => exact ⟨1, by rw [skipChain_succ, hc]; rfl⟩
  | more pc p hc _ ih =>
    obtain ⟨n, hn⟩ := ih
    exact ⟨n + 1, by rw [skipChain_succ, if_pos hc]; exact hn⟩

/-- The bounded chain and the chain of the rules end at the same addresses. -/
theorem skipChain_memorySize_iff : skipChain m memorySize pc = some p ↔ SkipsTo m pc p := by
  refine ⟨skipsTo_of_skipChain, fun h => ?_⟩
  obtain ⟨n, hn⟩ := skipChain_of_skipsTo h
  cases hq : skipChain m memorySize pc with
  | none => cases (skipChain_none_of_memorySize hq n).symm.trans hn
  | some q =>
    have hbound := skipChain_add m memorySize n pc
    have hrules := skipChain_add m n memorySize pc
    rw [hq, Option.some_or] at hbound
    rw [hn, Option.some_or, Nat.add_comm] at hrules
    exact hbound.symm.trans hrules

theorem skipChain_memorySize_eq_none_iff : skipChain m memorySize pc = none ↔ ∀ p, ¬SkipsTo m pc p := by
  simp only [← skipChain_memorySize_iff, Option.eq_none_iff_forall_ne_some]

end

/-- Settles O33: a chain that ends does so before it comes back to a word, so within 65536 skips. -/
theorem skipChainBoundIsExact : Obligations.SkipChainBoundIsExact := fun _ _ _ => skipChain_memorySize_iff

/-! ## The eight conditions (44_basic_conditional.md R136 to R143) -/

section
variable {b a : Word}

theorem ifbHolds_iff : ifbHolds b a = true ↔ b &&& a ≠ 0 := bne_iff_ne

theorem ifcHolds_iff : ifcHolds b a = true ↔ b &&& a = 0 := beq_iff_eq

theorem ifeHolds_iff : ifeHolds b a = true ↔ b = a := beq_iff_eq

theorem ifnHolds_iff : ifnHolds b a = true ↔ b ≠ a := bne_iff_ne

theorem ifgHolds_iff : ifgHolds b a = true ↔ a < b := decide_eq_true_iff.trans (Int.ofNat_lt.trans BitVec.lt_def.symm)

theorem ifaHolds_iff : ifaHolds b a = true ↔ a.slt b = true := decide_eq_true_iff.trans BitVec.slt_iff_toInt_lt.symm

theorem iflHolds_iff : iflHolds b a = true ↔ b < a := decide_eq_true_iff.trans (Int.ofNat_lt.trans BitVec.lt_def.symm)

theorem ifuHolds_iff : ifuHolds b a = true ↔ b.slt a = true := decide_eq_true_iff.trans BitVec.slt_iff_toInt_lt.symm

end

/-! ## Execute on, skip, or stick -/

/-- What the template answers in each of its three cases, in the terms of the rules (44_basic_conditional.md R135, R144,
R145): `holds` says what the condition tests. -/
theorem exec_executesOrSkips {i : Instr} {b a : Operand} {cond : Word → Word → Bool} {s : State} {holds : Prop}
    (he : exec i s = conditional b a cond s)
    (hcond : cond (resolveBoth b a s).b (resolveBoth b a s).a = true ↔ holds) :
    (holds → exec i s = .next (resolveBoth b a s).state) ∧
    (¬holds → ∀ p, SkipsTo s.mem (resolveBoth b a s).state.pc p →
      exec i s = .next ((resolveBoth b a s).state.setPc p)) ∧
    (¬holds → (∀ p, ¬SkipsTo s.mem (resolveBoth b a s).state.pc p) → exec i s = .fault .skipChainNeverEnds) := by
  rcases conditional_cases he.symm with ⟨hc, ho⟩ | ⟨hc, ⟨q, hq, ho⟩ | ⟨hq, ho⟩⟩
  · have h : holds := hcond.1 hc
    exact ⟨fun _ => ho, fun hn => absurd h hn, fun hn => absurd h hn⟩
  · have hn : ¬holds := mt hcond.2 (Bool.eq_false_iff.1 hc)
    refine ⟨fun h => absurd h hn, fun _ p hp => ?_, fun _ hend => absurd (skipChain_memorySize_iff.1 hq) (hend q)⟩
    cases hq.symm.trans (skipChain_memorySize_iff.2 hp)
    exact ho
  · have hn : ¬holds := mt hcond.2 (Bool.eq_false_iff.1 hc)
    have hend := skipChain_memorySize_eq_none_iff.1 hq
    exact ⟨fun h => absurd h hn, fun _ p hp => absurd hp (hend p), fun _ _ => ho⟩

/-- Settles O32: each of the eight is the shared template with its own condition, and the template's bounded chain is the
chain of the rules. -/
theorem conditionalsExecuteOrSkip : Obligations.ConditionalsExecuteOrSkip := by
  intro b a s i holds hi
  simp only [List.mem_cons, List.not_mem_nil, or_false, Prod.mk.injEq] at hi
  rcases hi with ⟨rfl, rfl⟩ | ⟨rfl, rfl⟩ | ⟨rfl, rfl⟩ | ⟨rfl, rfl⟩ | ⟨rfl, rfl⟩ | ⟨rfl, rfl⟩ | ⟨rfl, rfl⟩ | ⟨rfl, rfl⟩
  · exact exec_executesOrSkips rfl ifbHolds_iff
  · exact exec_executesOrSkips rfl ifcHolds_iff
  · exact exec_executesOrSkips rfl ifeHolds_iff
  · exact exec_executesOrSkips rfl ifnHolds_iff
  · exact exec_executesOrSkips rfl ifgHolds_iff
  · exact exec_executesOrSkips rfl ifaHolds_iff
  · exact exec_executesOrSkips rfl iflHolds_iff
  · exact exec_executesOrSkips rfl ifuHolds_iff

end Sys2Proof.Machine

/-! # Carry arithmetic and transfers: ADX, SBX, STI, STD

ADX and SBX share the arithmetic template and read EX as one more summand. STI and STD step I and J after the write through
`b`, so a `b` that is I or J holds its word plus the step, and any other location still holds `a`. -/

namespace Sys2Proof.Machine

/-! ## What each instruction computes -/

section
variable (b a : Operand) (s : State)

theorem exec_adx : exec (.adx b a) s = computeResultEx (.adx b a) b a adxResult adxEx s := rfl

theorem exec_sbx : exec (.sbx b a) s = computeResultEx (.sbx b a) b a sbxResult sbxEx s := rfl

theorem exec_sti : exec (.sti b a) s = transfer (.sti b a) b a (stepIndexRegs fun w => w + 1) s := rfl

theorem exec_std : exec (.std b a) s = transfer (.std b a) b a (stepIndexRegs fun w => w + -1) s := by
  simp only [exec, execStd, BitVec.sub_eq_add_neg]

end

/-! ## Carry arithmetic (45_basic_carry_transfer.md R150, R151) -/

/-- Settles O27: narrowing the true sum with EX is the sum of the three words, and EX tells whether it lost anything. -/
theorem adxAddsTheCarry : Obligations.AdxAddsTheCarry := by
  intro b a s hm hb
  obtain ⟨t, he, hres, hex⟩ := exec_completes_resultEx (exec_adx b a s) hb hm
  exact ⟨t, he, fun hne => (hres hne).trans (adxResult_eq _ _ _), hex.trans (adxEx_eq _ _ _)⟩

/-- Settles O28: EX is read unsigned, so the true result is negative exactly when `b` and EX together fall short of `a`. -/
theorem sbxAddsTheBorrow : Obligations.SbxAddsTheBorrow := by
  intro b a s hm hb
  obtain ⟨t, he, hres, hex⟩ := exec_completes_resultEx (exec_sbx b a s) hb hm
  exact ⟨t, he, fun hne => (hres hne).trans (sbxResult_eq _ _ _), hex.trans (sbxEx_eq _ _ _)⟩

/-! ## Transfers that step I and J (45_basic_carry_transfer.md R152, R153) -/

/-- A location that is neither I nor J reads the same after they step. -/
theorem Loc.read_stepIndexRegs {l : Loc} (hi : l ≠ .reg .i) (hj : l ≠ .reg .j) (d : Word → Word) (s : State) :
    l.read (stepIndexRegs d s) = l.read s := by
  cases l with
  | reg r =>
    have hr : ¬(r = .i ∨ r = .j) := by rintro (rfl | rfl) <;> contradiction
    exact (stepIndexRegs_getReg d s r).trans (if_neg hr)
  | mem addr | sp | pc | ex | lit v => rfl

section
variable {b a : Operand} {s u : State} {v : Word}

/-- After a write through the location of `b` a register holds the word written if it is `b`, and else what it held. -/
theorem getReg_of_bloc_write (hu : (resolveBoth b a s).bloc.write v (resolveBoth b a s).state = some u) (r : Reg) :
    u.getReg r = if b = .reg r then v else s.getReg r := by
  split
  · next h =>
    subst h
    cases hu
    exact setReg_getReg_same _ _ _
  · next h => exact (writeFrame_both hu).regs r h

/-- A transfer that then adds `d` to I and J completes at a writable `b`: the location of `b` was fixed before they
stepped, so it holds `a`, and I or J as `b` holds `a + d`. -/
theorem exec_completes_indexTransfer {i : Instr} {d : Word}
    (he : exec i s = transfer i b a (stepIndexRegs fun w => w + d) s)
    (hb : writable b = true) (hm : Memory.wf s.mem = true) :
    ∃ t, exec i s = .next t ∧
      (b ≠ .reg .i → b ≠ .reg .j → (resolveBoth b a s).bloc.read t = (resolveBoth b a s).a) ∧
      t.getReg .i = (if b = .reg .i then (resolveBoth b a s).a else s.getReg .i) + d ∧
      t.getReg .j = (if b = .reg .j then (resolveBoth b a s).a else s.getReg .j) + d ∧
      (b ≠ .ex → t.ex = s.ex) := by
  obtain ⟨u, hu, hnext⟩ := transfer_completes i b a (stepIndexRegs fun w => w + d) s hb
  refine ⟨_, he.trans hnext, fun hI hJ => ?_, ?_, ?_, (writeFrame_both hu).ex⟩
  · rw [Loc.read_stepIndexRegs (mt (bloc_reg_iff b a s .i).1 hI) (mt (bloc_reg_iff b a s .j).1 hJ)]
    exact Loc.read_write hu ((resolveBoth_mem b a s).symm ▸ hm)
  · rw [stepIndexRegs_getReg, if_pos (.inl rfl), getReg_of_bloc_write hu]
  · rw [stepIndexRegs_getReg, if_pos (.inr rfl), getReg_of_bloc_write hu]

end

/-- Settles O29: both are the transfer that then adds a word to I and J, 1 for STI and -1 for STD. -/
theorem indexTransfersCopyThenStep : Obligations.IndexTransfersCopyThenStep := by
  intro b a s i d hm hi
  refine ⟨opField_encode_basic rfl, opField_encode_basic rfl, ?_⟩
  simp only [List.mem_cons, List.not_mem_nil, or_false, Prod.mk.injEq] at hi
  rcases hi with ⟨rfl, rfl⟩ | ⟨rfl, rfl⟩
  · exact ⟨fun hb => exec_completes_indexTransfer (exec_sti b a s) hb hm, exec_invalidWriteTarget rfl⟩
  · exact ⟨fun hb => exec_completes_indexTransfer (exec_std b a s) hb hm, exec_invalidWriteTarget rfl⟩

/-! ## ADD, then ADX: pairs of words (45_basic_carry_transfer.md R154) -/

/-- A pair of words as a number: the high word counts 65536 times. -/
theorem toNat_append_word (x y : Word) : (x ++ y : BitVec 32).toNat = x.toNat * 65536 + y.toNat := by
  rw [BitVec.toNat_append, ← Nat.shiftLeft_add_eq_or_of_lt y.isLt, Nat.shiftLeft_eq]

/-- ADD's EX is the high word of the true sum. -/
theorem addEx_toNat (b a : Word) : (addEx b a).toNat = (b.toNat + a.toNat) / 65536 := by
  have hb := b.isLt
  have ha := a.isLt
  rw [addEx_eq]
  split
  · rw [show (1 : Word).toNat = 1 from rfl]; omega
  · rw [show (0 : Word).toNat = 0 from rfl]; omega

/-- Pairs of words add word by word, with the EX of the low words' ADD carried into the high ones. -/
theorem append_add_append (q p h l : Word) :
    (q ++ p : BitVec 32) + (h ++ l) = (q + h + addEx p l) ++ (p + l) := by
  apply BitVec.eq_of_toNat_eq
  simp only [BitVec.toNat_add, toNat_append_word, addEx_toNat]
  omega

theorem add_mem_exWriters (b a : Operand) : Instr.add b a ∈ exWriters b a := by simp [exWriters]

theorem adx_mem_exWriters (b a : Operand) : Instr.adx b a ∈ exWriters b a := by simp [exWriters]

/-- An instruction with an EX rule and a register as `b` leaves every other register alone. -/
theorem getReg_of_exWriter_reg {i : Instr} {r q : Reg} {a : Operand} {s t : State} (hq : q ≠ r)
    (hi : i ∈ exWriters (.reg r) a) (h : exec i s = .next t) : t.getReg q = s.getReg q := by
  obtain ⟨hregs, _⟩ := exWritersFrame _ _ _ _ _ hi h
  exact hregs q fun e => hq (Operand.reg.inj e).symm

/-- Settles O31: ADX finds the high words as they were and the low words' carry in EX, and keeps the low sum. -/
theorem addThenAdxAddsPairs : Obligations.AddThenAdxAddsPairs := by
  intro p q l h s hpq hhp
  obtain ⟨t, hadd, htp, htex⟩ := exec_completes_resultEx_reg (exec_add (.reg p) (.reg l) s)
  obtain ⟨u, hadx, huq, _⟩ := exec_completes_resultEx_reg (exec_adx (.reg q) (.reg h) t)
  have htq : t.getReg q = s.getReg q := getReg_of_exWriter_reg hpq.symm (add_mem_exWriters _ _) hadd
  have hth : t.getReg h = s.getReg h := getReg_of_exWriter_reg hhp (add_mem_exWriters _ _) hadd
  have hhigh : u.getReg q = s.getReg q + s.getReg h + addEx (s.getReg p) (s.getReg l) :=
    calc u.getReg q
        = t.getReg q + t.getReg h + t.ex := huq.trans (adxResult_eq _ _ _)
      _ = s.getReg q + s.getReg h + addEx (s.getReg p) (s.getReg l) := by rw [htq, hth, htex]; rfl
  have hlow : u.getReg p = s.getReg p + s.getReg l :=
    calc u.getReg p
        = t.getReg p := getReg_of_exWriter_reg hpq (adx_mem_exWriters _ _) hadx
      _ = s.getReg p + s.getReg l := htp.trans (addResult_eq _ _)
  exact ⟨t, u, hadd, hadx, by rw [hhigh, hlow, append_add_append]⟩

end Sys2Proof.Machine

/-! # Special instructions: JSR, INT, IAG, IAS, RFI, IAQ, HWN, HWQ, HWI

A special instruction resolves its one operand and then does one operation of the core to the state that leaves: a push, an
enqueue, a write-back, a return from interrupt, a query or a call of the bus. Each has an equation that says which, and the
statements follow from the laws of the operation and of the operand. -/

namespace Sys2Proof.Machine

/-! ## What each instruction does -/

section
variable (a : Operand) (s : State)

theorem exec_jsr : exec (.jsr a) s =
    .next (((resolveSource a s).state.push (resolveSource a s).state.pc).setPc (resolveSource a s).val) := rfl

theorem exec_iag : exec (.iag a) s =
    writeBack (.iag a) s (resolveSource a s).loc s.ia (resolveSource a s).state id := by
  simp only [exec, execIag, resolveSource_ia]

theorem exec_ias : exec (.ias a) s =
    .next ((resolveSource a s).state.setIa (resolveSource a s).val) := rfl

theorem exec_rfi : exec (.rfi a) s = .next (resolveSource a s).state.returnFromInterrupt := rfl

theorem exec_iaq : exec (.iaq a) s =
    .next ((resolveSource a s).state.setIqe ((resolveSource a s).val == 0)) := rfl

theorem exec_hwn : exec (.hwn a) s =
    writeBack (.hwn a) s (resolveSource a s).loc Config.hwDeviceCount (resolveSource a s).state id := rfl

theorem exec_hwq : exec (.hwq a) s =
    .next ((resolveSource a s).state.hardwareQuery (resolveSource a s).val) := rfl

theorem exec_hwi : exec (.hwi a) s =
    .next ((resolveSource a s).state.hardwareInterrupt (resolveSource a s).val) := rfl

end

/-! ## Calling and returning (46_special.md R161, R165) -/

/-- Once its operand is resolved, PC of a special instruction is the address of the instruction after it: where it was
fetched, plus its length. -/
theorem resolveSource_pc_eq_following {i : Instr} {a : Operand} (hs : i.shape = .special a) (h : i.wf = true)
    (s : State) : (resolveSource a s).state.pc = s.pc - 1 + BitVec.ofNat 16 i.length := by
  rw [resolveSource_pc, ofNat_length h, operandsPcDelta_special hs, ← BitVec.add_assoc, BitVec.sub_add_cancel]

/-- Settles O34: the word pushed is PC as the operand left it, which is the address of the next instruction. -/
theorem jsrPushesTheReturnAddress : Obligations.JsrPushesTheReturnAddress := by
  intro a s hm ha
  have hm' : Memory.wf (resolveSource a s).state.mem = true := by rwa [resolveSource_mem]
  exact ⟨_, exec_jsr a s, rfl, rfl,
    (push_readMem_same _ _ hm').trans (resolveSource_pc_eq_following (i := .jsr a) rfl ha s)⟩

/-- Settles O37: the two pops read the memory the operand left, which it did not change. -/
theorem rfiPopsAThenPc : Obligations.RfiPopsAThenPc := fun a s =>
  ⟨_, exec_rfi a s, returnFromInterrupt_iqe _,
    (returnFromInterrupt_getReg _ .a).trans (resolveSource_readMem a s _),
    (returnFromInterrupt_pc _).trans (resolveSource_readMem a s _),
    (returnFromInterrupt_sp _).trans (BitVec.add_assoc _ 1 1)⟩

/-! ## Interrupt control (46_special.md R162, R164, R166) -/

/-- Settles O35: the two cases of the enqueue, told apart by whether the queue has room. -/
theorem intQueuesItsMessage : Obligations.IntQueuesItsMessage := by
  intro a s
  rcases exec_int_cases a s with ⟨hroom, he⟩ | ⟨hfull, he⟩
  · exact ⟨fun _ => ⟨_, he, rfl⟩, fun h => absurd hroom (Nat.not_lt.2 h)⟩
  · exact ⟨fun h => absurd h (Nat.not_lt.2 hfull), fun _ => he⟩

/-- A message delivered while IA is 0 is discarded (60_exceptions.md R191). -/
theorem deliverMessage_of_ia_eq_zero {s : State} (h : s.ia = 0) (m : Word) : s.deliverMessage m = s := if_pos h

/-- The opcode of a special instruction stands in the field of `b`, over a zero `op` (30_encoding.md R64). -/
theorem fields_encode_special {i : Instr} {a : Operand} (hs : i.shape = .special a) :
    bField (encode i) = i.opcode ∧ opField (encode i) = 0 := by
  rw [encode_special hs]
  exact ⟨bField_packWord .., opField_packWord ..⟩

/-- Settles O36. -/
theorem iasSetsIa : Obligations.IasSetsIa := by
  intro a s
  obtain ⟨hcode, hop⟩ := fields_encode_special (i := .ias a) rfl
  exact ⟨hcode, hop, exec_ias a s, fun hv u hu => deliverMessage_of_ia_eq_zero (hu.trans hv)⟩

/-- Settles O38. -/
theorem iaqSwitchesDispatch : Obligations.IaqSwitchesDispatch := fun a s =>
  ⟨_, exec_iaq a s, beq_iff_eq⟩

/-! ## Writes through the operand (46_special.md R163, R167) -/

/-- A special instruction that ends in the write-back of `v` leaves `v` in its writable operand. -/
theorem exec_completes_source {i : Instr} {a : Operand} {v : Word} {s : State}
    (he : exec i s = writeBack i s (resolveSource a s).loc v (resolveSource a s).state id)
    (ha : writable a = true) (hm : Memory.wf s.mem = true) :
    ∃ t, exec i s = .next t ∧ (resolveSource a s).loc.read t = v := by
  obtain ⟨u, hu⟩ := write_resolve_isSome a .a v s (resolveSource a s).state ha
  exact ⟨u, he.trans (writeBack_next.2 ⟨u, hu, rfl⟩), Loc.read_write hu (by rwa [resolveSource_mem])⟩

/-- Settles O39: both end in the write-back through their operand, IAG's of an IA that the operand left alone. -/
theorem iagAndHwnWriteTheirOperand : Obligations.IagAndHwnWriteTheirOperand := by
  intro a s i v hm hi
  simp only [List.mem_cons, List.not_mem_nil, or_false, Prod.mk.injEq] at hi
  rcases hi with ⟨rfl, rfl⟩ | ⟨rfl, rfl⟩
  · exact ⟨fun ha => exec_completes_source (exec_iag a s) ha hm,
      fun ha => exec_of_writesLiteral s (writesLiteral_of_destination rfl ha)⟩
  · exact ⟨fun ha => exec_completes_source (exec_hwn a s) ha hm,
      fun ha => exec_of_writesLiteral s (writesLiteral_of_destination rfl ha)⟩

/-! ## The hardware bus (46_special.md R168, R169, R171, R173) -/

/-- A 32-bit number is its high word before its low word. -/
theorem extract_high_append_low (v : BitVec 32) : (v.extractLsb' 16 16 ++ v.extractLsb' 0 16 : BitVec 32) = v :=
  (BitVec.extractLsb'_append_extractLsb'_eq_extractLsb' rfl).trans BitVec.extractLsb'_eq_self

/-- A query fills its five registers, and may count a draw. -/
theorem hardwareQuery_eq_setQueryRegs (s : State) (index : Word) :
    ∃ q n, s.hardwareQuery index = { s.setQueryRegs q with hostDraws := n } := by
  obtain ⟨q, hq | hq⟩ := hardwareQuery_eq s index
  · exact ⟨q, _, hq⟩
  · exact ⟨q, _, hq⟩

theorem hardwareQuery_attached {index : Word} (s : State) (h : deviceAttached index = true) :
    s.hardwareQuery index = s.setQueryRegs (deviceWords (Config.hwDevice index)) := if_pos h

theorem setQueryRegs_getReg_other (s : State) (q : HwqWords) {r : Reg} (h : r ∉ [Reg.b, .c, .x, .y, .z]) :
    (s.setQueryRegs q).getReg r = s.getReg r := by
  rw [setQueryRegs_getReg]
  cases r with
  | a | i | j => rfl
  | b | c | x | y | z => simp at h

/-- Settles O40: the words of a device are the halves of its numbers, and whatever the words are, a query fills no more than
its five registers. -/
theorem hwqFillsItsFiveRegisters : Obligations.HwqFillsItsFiveRegisters := by
  intro a s
  refine ⟨_, exec_hwq a s, ?_, ?_⟩
  · cases hd : deviceAttached (resolveSource a s).val with
    | false => exact .inl rfl
    | true =>
      rw [hardwareQuery_attached _ hd]
      exact .inr ⟨extract_high_append_low _, rfl, extract_high_append_low _⟩
  · obtain ⟨q, n, hq⟩ := hardwareQuery_eq_setQueryRegs (resolveSource a s).state (resolveSource a s).val
    rw [hq]
    exact ⟨fun r hr => (setQueryRegs_getReg_other _ q hr).trans (resolveSource_getReg a s r), resolveSource_sp_eq a s,
      resolveSource_ex a s, resolveSource_readMem a s, resolveSource_ia a s, resolveSource_queue a s,
      resolveSource_iqe a s, resolveSource_halt a s⟩

/-- Settles O41: without a device HWI leaves the state its operand left; with one, the device's answer reaches only registers
and memory, write by write. -/
theorem hwiIsBoundedByTheBus : Obligations.HwiIsBoundedByTheBus := by
  intro a s
  refine ⟨⟨_, exec_hwi a s, ?_⟩,
    fun ans => ⟨applyAnswer_getReg s ans, fun hm k => applyAnswer_readMem ans k hm⟩⟩
  have hex := resolveSource_ex a s
  have hia := resolveSource_ia a s
  have hiqe := resolveSource_iqe a s
  have hqueue := resolveSource_queue a s
  have hhalt := resolveSource_halt a s
  have hwf := (resolveSource_execFrame (.hwi a) a s).wf
  rcases hardwareInterrupt_cases (resolveSource a s).state (resolveSource a s).val with
    ⟨hd, he⟩ | ⟨hd, g, m, he, hm⟩
  · rw [he]
    exact ⟨rfl, rfl, hex, hia, hiqe, hqueue, hhalt, hwf, .inr rfl, .inl hd⟩
  · have hanswer := hardwareInterrupt_attached (resolveSource a s).state hd
    rw [resolveSource_hostDraws] at hanswer
    have hregs := congrArg State.regs hanswer
    have hmem := congrArg State.mem hanswer
    rw [he] at hregs hmem ⊢
    exact ⟨rfl, rfl, hex, hia, hiqe, hqueue, hhalt, hm ∘ hwf, .inl hd, .inr ⟨hregs, hmem⟩⟩

end Sys2Proof.Machine

/-! # Interrupts: entry, return and delivery

Taking an interrupt is either nothing, a message leaving Q, or the handler's entry in the state that message has left. RFI
with an operand of no side effect is the return itself, and the return undoes the entry: its two pops read the two words the
entry pushed. -/

namespace Sys2Proof.Machine

/-! ## Taking an interrupt (60_exceptions.md R190, R191) -/

section
variable {s : State}

theorem takeInterrupt_of_iqe_eq_false (h : s.iqe = false) : s.takeInterrupt = s := by
  rcases takeInterrupt_cases s with ⟨_, he⟩ | ⟨_, _, hi, _⟩
  · exact he
  · exact absurd (hi.symm.trans h) (by decide)

theorem takeInterrupt_of_queue_eq_nil (h : s.queue = []) : s.takeInterrupt = s := by
  rcases takeInterrupt_cases s with ⟨_, he⟩ | ⟨_, _, _, hq, _⟩
  · exact he
  · cases hq.symm.trans h

theorem takeInterrupt_of_queue_eq_cons {m : Word} {rest : List Word} (hi : s.iqe = true) (hq : s.queue = m :: rest) :
    s.takeInterrupt = (s.setQueue rest).deliverMessage m := by
  rw [State.takeInterrupt, hi, hq]

theorem deliverMessage_of_ia_ne_zero (h : s.ia ≠ 0) (m : Word) : s.deliverMessage m = s.enterHandler m := if_neg h

end

/-- Settles O43: with IA = 0 what is delivered is discarded, so only Q can change, and an empty Q is its own tail. -/
theorem messagesWaitOrAreDiscarded : Obligations.MessagesWaitOrAreDiscarded := by
  refine fun s => ⟨takeInterrupt_of_iqe_eq_false, fun hi hia => ?_⟩
  cases hq : s.queue with
  | nil => rw [takeInterrupt_of_queue_eq_nil hq, List.tail_nil, ← hq]
  | cons m rest =>
    rw [takeInterrupt_of_queue_eq_cons hi hq]
    exact deliverMessage_of_ia_eq_zero (s := s.setQueue rest) hia m

/-- Settles O42: the handler is entered in the state the message has left, whose stack slots are those of `s`. -/
theorem interruptEntrySavesPcAndA : Obligations.InterruptEntrySavesPcAndA := by
  intro s m rest hm hi hq hia
  have he : s.takeInterrupt = (s.setQueue rest).enterHandler m :=
    (takeInterrupt_of_queue_eq_cons hi hq).trans (deliverMessage_of_ia_ne_zero (s := s.setQueue rest) hia m)
  have hslot : s.sp - 2 = s.sp - 1 - 1 := by bv_omega
  rw [he, hslot]
  exact ⟨enterHandler_pc _ m, (enterHandler_getReg _ m .a).trans (if_pos rfl), enterHandler_iqe _ m,
    enterHandler_queue _ m, enterHandler_sp _ m, enterHandler_readMem_pc _ m hm, enterHandler_readMem_a _ m hm,
    fun _ => enterHandler_readMem_other _ m, fun r hr => (enterHandler_getReg _ m r).trans (if_neg hr),
    enterHandler_ex _ m, enterHandler_ia _ m, enterHandler_halt _ m⟩

/-! ## Returning from an interrupt (60_exceptions.md R198) -/

/-- Two pushes move SP by two, so the return finds both words where the entry left them. -/
theorem returnFromInterrupt_enterHandler {s : State} (m : Word) (hm : Memory.wf s.mem = true) :
    (s.enterHandler m).returnFromInterrupt.pc = s.pc ∧ (s.enterHandler m).returnFromInterrupt.sp = s.sp ∧
      ∀ r, (s.enterHandler m).returnFromInterrupt.getReg r = s.getReg r := by
  refine ⟨?_, ?_, fun r => ?_⟩
  · rw [returnFromInterrupt_pc, enterHandler_sp, BitVec.sub_add_cancel, enterHandler_readMem_pc s m hm]
  · rw [returnFromInterrupt_sp, enterHandler_sp, BitVec.sub_add_cancel, BitVec.sub_add_cancel]
  · rw [returnFromInterrupt_getReg, enterHandler_getReg, enterHandler_sp, enterHandler_readMem_a s m hm]
    split
    · next hr => rw [hr]
    · rfl

/-- An inline operand has no side effect, so RFI is the return alone. -/
theorem exec_rfi_inlineLiteral (v : Word) (s : State) :
    exec (.rfi (.inlineLiteral v)) s = .next s.returnFromInterrupt := exec_rfi (.inlineLiteral v) s

/-- Settles O44: RFI here is the return alone, and the return undoes the entry. -/
theorem rfiUndoesInterruptEntry : Obligations.RfiUndoesInterruptEntry := by
  intro s m v hm
  obtain ⟨hpc, hsp, hregs⟩ := returnFromInterrupt_enterHandler m hm
  exact ⟨_, exec_rfi_inlineLiteral v _, hpc, hsp, hregs, returnFromInterrupt_iqe _,
    (returnFromInterrupt_ex _).trans (enterHandler_ex s m), (returnFromInterrupt_queue _).trans (enterHandler_queue s m)⟩

/-! ## Delivery by the host (60_exceptions.md R189, R207) -/

theorem hostAct_deliverInterrupt (m : Word) (s : State) :
    hostAct (.deliverInterrupt m) s = .next (s.deliverInterrupt m) := rfl

/-- Settles O45: the three cases of a delivery, told apart by `halt` and by whether Q has room. -/
theorem deliveryEnqueuesOrHalts : Obligations.DeliveryEnqueuesOrHalts := by
  intro s m
  rw [hostAct_deliverInterrupt]
  rcases deliverInterrupt_cases s m with ⟨hh, he⟩ | ⟨hh, hfull, he⟩ | ⟨hh, hroom, he⟩ <;> rw [he]
  · exact ⟨fun _ => rfl, fun h => absurd h hh, fun h => absurd h hh⟩
  · exact ⟨absurd hh, fun _ h => absurd h (Nat.not_lt.2 hfull), fun _ _ => rfl⟩
  · exact ⟨absurd hh, fun _ _ => rfl, fun _ h => absurd hroom (Nat.not_lt.2 h)⟩

end Sys2Proof.Machine

/-! # Loading a program (70_reset_and_hazards.md R216)

`set_program` turns on one comparison, the image's length against the size of memory. -/

namespace Sys2Proof.Machine

section
variable {image : List Word}

theorem hostAct_setProgram_of_length_le (h : image.length ≤ memorySize) (s : State) :
    hostAct (.setProgram image) s = .next (s.setProgram image) := if_neg (Nat.not_lt.2 h)

theorem hostAct_setProgram_of_lt_length (h : memorySize < image.length) (s : State) :
    hostAct (.setProgram image) s = .refused .imageTooLong := if_pos h

/-- Memory reads as the image's words from address 0 up and as zero past them. -/
theorem setProgram_readMem (h : image.length ≤ memorySize) (s : State) (k : Word) :
    (s.setProgram image).readMem k = image.getD k.toNat 0 :=
  Memory.ofImage_read (Nat.zero_le _) ((Nat.zero_add _).trans_le h)

theorem setProgram_mem_wf (h : image.length ≤ memorySize) (s : State) :
    Memory.wf (s.setProgram image).mem = true := Memory.ofImage_wf ((Nat.zero_add _).trans_le h)

end

/-- Settles O47: an image that fits is loaded over memory and PC alone, and a longer one is refused. -/
theorem setProgramLoadsTheImage : Obligations.SetProgramLoadsTheImage := by
  intro s image
  refine ⟨fun hfits => ?_, fun hlong => hostAct_setProgram_of_lt_length hlong s⟩
  exact ⟨s.setProgram image, hostAct_setProgram_of_length_le hfits s, setProgram_readMem hfits s,
    setProgram_mem_wf hfits s, rfl, rfl, rfl, rfl, rfl, rfl, rfl, rfl⟩

end Sys2Proof.Machine
